-- ==== Sys2Proof/Word.lean ====
section
/-! DEFINITION. The words of the core: the 32-bit register and command word, the 16-bit cell address and the host
bus word (rules R24, R51, R55 and R80 of the spec). -/
namespace Sys2Proof

/-- A control register or a command word: 32 bits (R24, R80). -/
abbrev Word := BitVec 32

/-- The address of a cell of the host address space: 16 bits (R51). -/
abbrev CellAddr := BitVec 16

/-- A value on the host bus, held in the greatest width a bus can have. An instance's bus carries `HB = max(32, W)` of these
bits, `Params.busWidth` (R51, R5; log 12). -/
abbrev BusWord := BitVec 64

/-- The base slot an operand field of a command names: 6 bits, unsigned (R81). -/
abbrev SlotIx := Fin 64

end Sys2Proof
end

