-- ==== Sys2Proof/Config.lean ====
section
/-! DEFINITION. What an implementation of the core fixes (the OPEN parameters of 92_eei_decisions.md) and the free values
the spec leaves open. -/
namespace Sys2Proof

/-- One step of the inversion chain, over the temporaries `t[0..K-1]` (R130). -/
inductive ChainStep where
  /-- `t[d] <- FPSQR(t[s])` -/
  | sqr (d s : Nat)
  /-- `t[d] <- FPMUL(t[s1], t[s2])` -/
  | mul (d s1 s2 : Nat)
  deriving DecidableEq, Repr

/-- The parameters of one implementation; none has a value in the source (R5 to R8, R25, R130). They stand in State as
read-only data, so that every claim is about every parameter set (log 1). -/
structure Params where
  /-- `W`, the digit width in bits (R5). -/
  w : Nat
  /-- `N`, the number of digits of a slot (R6). -/
  n : Nat
  /-- `P`, the prime (R7). -/
  p : Nat
  /-- `NSLOT`, the number of slots (R8). -/
  nslot : Nat
  /-- `K`, the number of temporaries of the inversion chain (R130). -/
  temps : Nat
  /-- `INV_CHAIN` (R130). -/
  chain : List ChainStep
  /-- `CORE_ID`, what ID reads (R25). -/
  coreId : Word
  deriving DecidableEq, Repr

/-- The free values (draws) of the model: the value of the `k`-th one. The spec gives no law for them (R56, R207, R36;
U1 to U3 of 93_implementation_defined.md), so this constant has no body (logs 4, 5, 6). -/
opaque Config.draw : Nat → Nat

/-- The hidden data-path temporaries a completed command leaves, for its command word and its sampled sources; the spec
does not give them and nothing reads them (R32, U4; log 9). -/
opaque Config.hiddenTemps : Word → List Nat → List Nat → List Nat

/-- The hidden temporaries after a reset in the middle of a run: unspecified (R36; log 9). -/
opaque Config.lostTemps : Nat → List Nat

end Sys2Proof
end

