-- ==== Sys2Proof/Syntax.lean ====
section
/-! DEFINITION. The twelve commands of the core as syntax (R84, R85), and the names of the operand groups (R22) and error
codes (R201). -/
namespace Sys2Proof

/-- The DW bit of MP_ADD and MP_SUB (R82): single width (N digits) or double width (2N digits). -/
inductive Width where
  | single
  | double
  deriving DecidableEq, Repr

/-- The SEL bit of MP_SUBC (R82): the multiple of the prime that is added. -/
inductive Correction where
  | twoP
  | fourP
  deriving DecidableEq, Repr

/-- The commands, one constructor per row of the opcode map (R84); `rd` is the base of the destination group, `rs1` and
`rs2` those of the source groups (R80, R85). -/
inductive Instr where
  /-- MP_ADD (R100) -/
  | mpAdd (wd : Width) (rd rs1 rs2 : SlotIx)
  /-- MP_SUB (R101) -/
  | mpSub (wd : Width) (rd rs1 rs2 : SlotIx)
  /-- MP_SUBC (R102) -/
  | mpSubc (sel : Correction) (rd rs1 rs2 : SlotIx)
  /-- MP_MUL (R103) -/
  | mpMul (rd rs1 rs2 : SlotIx)
  /-- FP_MUL (R127) -/
  | fpMul (rd rs1 rs2 : SlotIx)
  /-- FP_SQR (R128) -/
  | fpSqr (rd rs1 : SlotIx)
  /-- FP_RDC (R129) -/
  | fpRdc (rd rs1 : SlotIx)
  /-- FP_INV (R132) -/
  | fpInv (rd rs1 : SlotIx)
  /-- FP2_MUL (R155) -/
  | fp2Mul (rd rs1 rs2 : SlotIx)
  /-- PT_DBL, `e`-fold doubling (R172) -/
  | ptDbl (rd rs1 rs2 : SlotIx) (e : Fin 256)
  /-- ISO4_EVAL (R174) -/
  | iso4Eval (rd rs1 rs2 : SlotIx)
  /-- ISO3_EVAL (R176) -/
  | iso3Eval (rd rs1 rs2 : SlotIx)
  deriving DecidableEq, Repr

/-- The kinds of operand group (R22, R85). -/
inductive Group where
  | fe
  | dw
  | fp2
  | pt
  | crv
  | k4
  | k3
  deriving DecidableEq, Repr

/-- An operand: a group at a base slot (R22, R83). -/
structure Operand where
  base : SlotIx
  group : Group
  deriving DecidableEq, Repr

/-- Why a command word is illegal: ECODE 1 to 4 (R88, R201). -/
inductive IllCode where
  /-- 1: a reserved opcode -/
  | illOpc
  /-- 2: a reserved-zero field that is not zero -/
  | illZero
  /-- 3: IMM8 outside its legal values -/
  | illImm
  /-- 4: an operand group runs past the slot file -/
  | illRange
  deriving DecidableEq, Repr

/-- Why a write was dropped: ECODE 5 to 7 (R201, R203). -/
inductive HazCode where
  /-- 5: CMD written while busy -/
  | hazCmd
  /-- 6: a slot cell written while busy -/
  | hazSlot
  /-- 7: CTRL.WIPE written while busy -/
  | hazWipe
  deriving DecidableEq, Repr

/-- The contents of STATUS.ECODE. Codes 8 to 15 are never produced (R201, U8), so there is no constructor for them. -/
inductive ECode where
  | none
  | ill (e : IllCode)
  | haz (e : HazCode)
  deriving DecidableEq, Repr

/-- The source field a fault names (R80). -/
inductive SrcField where
  | rs1
  | rs2
  deriving DecidableEq, Repr

end Sys2Proof
end

