-- ==== Sys2Proof/Machine/Groups.lean ====
section
/-! DEFINITION. The operand groups of each command: which group each field names and how many slots it takes (R22, R85). -/
namespace Sys2Proof

/-- The width of a group in slots (R22). -/
def Group.width : Group → Nat
  | .fe => 1
  | .dw => 2
  | .fp2 => 2
  | .pt => 4
  | .crv => 4
  | .k4 => 6
  | .k3 => 4

/-- The group of MP_ADD's and MP_SUB's operands: FE, or DW if the DW bit is set (R85). -/
def Width.group : Width → Group
  | .single => .fe
  | .double => .dw

/-- The destination operand (R85, column RD). -/
def Instr.dst : Instr → Operand
  | .mpAdd wd rd _ _ => ⟨rd, wd.group⟩
  | .mpSub wd rd _ _ => ⟨rd, wd.group⟩
  | .mpSubc _ rd _ _ => ⟨rd, .fe⟩
  | .mpMul rd _ _ => ⟨rd, .dw⟩
  | .fpMul rd _ _ => ⟨rd, .fe⟩
  | .fpSqr rd _ => ⟨rd, .fe⟩
  | .fpRdc rd _ => ⟨rd, .fe⟩
  | .fpInv rd _ => ⟨rd, .fe⟩
  | .fp2Mul rd _ _ => ⟨rd, .fp2⟩
  | .ptDbl rd _ _ _ => ⟨rd, .pt⟩
  | .iso4Eval rd _ _ => ⟨rd, .pt⟩
  | .iso3Eval rd _ _ => ⟨rd, .pt⟩

/-- The first source operand (R85, column RS1). -/
def Instr.src1 : Instr → Operand
  | .mpAdd wd _ rs1 _ => ⟨rs1, wd.group⟩
  | .mpSub wd _ rs1 _ => ⟨rs1, wd.group⟩
  | .mpSubc _ _ rs1 _ => ⟨rs1, .fe⟩
  | .mpMul _ rs1 _ => ⟨rs1, .fe⟩
  | .fpMul _ rs1 _ => ⟨rs1, .fe⟩
  | .fpSqr _ rs1 => ⟨rs1, .fe⟩
  | .fpRdc _ rs1 => ⟨rs1, .dw⟩
  | .fpInv _ rs1 => ⟨rs1, .fe⟩
  | .fp2Mul _ rs1 _ => ⟨rs1, .fp2⟩
  | .ptDbl _ rs1 _ _ => ⟨rs1, .pt⟩
  | .iso4Eval _ rs1 _ => ⟨rs1, .pt⟩
  | .iso3Eval _ rs1 _ => ⟨rs1, .pt⟩

/-- The second source operand, if the command has one (R85, column RS2; "0" there is `none`). -/
def Instr.src2 : Instr → Option Operand
  | .mpAdd wd _ _ rs2 => some ⟨rs2, wd.group⟩
  | .mpSub wd _ _ rs2 => some ⟨rs2, wd.group⟩
  | .mpSubc _ _ _ rs2 => some ⟨rs2, .fe⟩
  | .mpMul _ _ rs2 => some ⟨rs2, .fe⟩
  | .fpMul _ _ rs2 => some ⟨rs2, .fe⟩
  | .fpSqr _ _ => none
  | .fpRdc _ _ => none
  | .fpInv _ _ => none
  | .fp2Mul _ _ rs2 => some ⟨rs2, .fp2⟩
  | .ptDbl _ _ rs2 _ => some ⟨rs2, .crv⟩
  | .iso4Eval _ _ rs2 => some ⟨rs2, .k4⟩
  | .iso3Eval _ _ rs2 => some ⟨rs2, .k3⟩

/-- A group fits in a slot file of `nslot` slots: `s + width ≤ NSLOT` (R22, R81). -/
def Operand.fits (nslot : Nat) (o : Operand) : Bool :=
  decide (o.base.val + o.group.width ≤ nslot)

/-- A field that is not used fits (R88 looks at used fields only). -/
def Operand.optionFits (nslot : Nat) : Option Operand → Bool
  | none => true
  | some o => o.fits nslot

/-- The slots an operand occupies: `base, base + 1, …` (R22). -/
def Operand.slots (o : Operand) : List Nat :=
  (List.range o.group.width).map (o.base.val + ·)

end Sys2Proof
end

