-- ==== Sys2Proof/WellFormed.lean ====
section
/-! DEFINITION. When a command is well formed: each operand group it names lies inside the slot file (R22, R88 code 4). The
other legality checks (R88 codes 1 to 3) are about words and are the decoder's: no `Instr` breaks them. -/
namespace Sys2Proof

/-- Every used operand group fits in the slot file (R88, the last check). -/
def Instr.wellFormed (nslot : Nat) (i : Instr) : Bool :=
  i.dst.fits nslot && i.src1.fits nslot && Operand.optionFits nslot i.src2

end Sys2Proof
end

