-- ==== Sys2Proof/Decode.lean ====
section
/-! DEFINITION. Decoding a command word, total on every word and rejecting by name (R80 to R89), then the encoder, written
from the same tables. -/
namespace Sys2Proof

/-- OPC, bits [31:26] (R80). -/
def opcOf (c : Word) : Nat := c.toNat / 2 ^ 26

/-- RD, bits [25:20] (R80). -/
def rdOf (c : Word) : SlotIx := ⟨c.toNat / 2 ^ 20 % 64, Nat.mod_lt _ (by decide)⟩

/-- RS1, bits [19:14] (R80). -/
def rs1Of (c : Word) : SlotIx := ⟨c.toNat / 2 ^ 14 % 64, Nat.mod_lt _ (by decide)⟩

/-- RS2, bits [13:8] (R80). -/
def rs2Of (c : Word) : SlotIx := ⟨c.toNat / 2 ^ 8 % 64, Nat.mod_lt _ (by decide)⟩

/-- IMM8, bits [7:0] (R80), unsigned and unscaled (R82). -/
def immOf (c : Word) : Fin 256 := ⟨c.toNat % 256, Nat.mod_lt _ (by decide)⟩

/-- The DW bit a legal IMM8 of MP_ADD or MP_SUB names (R82). -/
def widthOf (imm : Fin 256) : Width := if imm.val = 0 then .single else .double

/-- The SEL bit a legal IMM8 of MP_SUBC names (R82). -/
def correctionOf (imm : Fin 256) : Correction := if imm.val = 0 then .twoP else .fourP

/-- A one-bit IMM8: legal values 0 and 1, else ECODE 3 (R82, R87). -/
def oneBitImm (imm : Fin 256) (i : Instr) : Except IllCode Instr :=
  if 1 < imm.val then .error .illImm else .ok i

/-- An unused IMM8: must be 0, else ECODE 2 (R85, R87). -/
def zeroImm (imm : Fin 256) (i : Instr) : Except IllCode Instr :=
  if imm.val ≠ 0 then .error .illZero else .ok i

/-- Unused RS2 and IMM8: must be 0, else ECODE 2 (R85, R87). -/
def zeroRs2 (rs2 : SlotIx) (imm : Fin 256) (i : Instr) : Except IllCode Instr :=
  if rs2.val ≠ 0 then .error .illZero else zeroImm imm i

/-- The command that an opcode selects from the fields of a word, or the first of ECODE 1 to 3 that refuses them (R84 to
R88). OPC alone selects the command (R89). -/
def decodeFields (opc : Nat) (rd rs1 rs2 : SlotIx) (imm : Fin 256) : Except IllCode Instr :=
  match opc with
  | 0x01 => oneBitImm imm (.mpAdd (widthOf imm) rd rs1 rs2)
  | 0x02 => oneBitImm imm (.mpSub (widthOf imm) rd rs1 rs2)
  | 0x03 => oneBitImm imm (.mpSubc (correctionOf imm) rd rs1 rs2)
  | 0x04 => zeroImm imm (.mpMul rd rs1 rs2)
  | 0x05 => zeroImm imm (.fpMul rd rs1 rs2)
  | 0x06 => zeroRs2 rs2 imm (.fpSqr rd rs1)
  | 0x07 => zeroRs2 rs2 imm (.fpRdc rd rs1)
  | 0x08 => zeroRs2 rs2 imm (.fpInv rd rs1)
  | 0x09 => zeroImm imm (.fp2Mul rd rs1 rs2)
  | 0x0A => .ok (.ptDbl rd rs1 rs2 imm)
  | 0x0B => zeroImm imm (.iso4Eval rd rs1 rs2)
  | 0x0C => zeroImm imm (.iso3Eval rd rs1 rs2)
  | _ => .error .illOpc

/-- The command a word stands for, total on every word (R80 to R89). -/
def decode (c : Word) : Except IllCode Instr := decodeFields (opcOf c) (rdOf c) (rs1Of c) (rs2Of c) (immOf c)

/-- The verdict on a command word: the command, or the first code that applies, code 4 last (R88). -/
def legality (nslot : Nat) (c : Word) : Except IllCode Instr :=
  match decode c with
  | .error e => .error e
  | .ok i => if i.wellFormed nslot then .ok i else .error .illRange

/-- The command of an instruction whose bits are `w`, as the opcode table numbers them (one 32-bit word, R89). -/
def decodeTableWord (nbits w : Nat) : Option Instr :=
  if nbits ≤ 32 ∧ w < 2 ^ 32 then (decode (BitVec.ofNat 32 w)).toOption else none

/-- The fields of a command word put in their places (R80). -/
def assemble (opc : Nat) (rd rs1 rs2 : SlotIx) (imm : Fin 256) : Word :=
  BitVec.ofNat 32 (opc * 2 ^ 26 + rd.val * 2 ^ 20 + rs1.val * 2 ^ 14 + rs2.val * 2 ^ 8 + imm.val)

/-- IMM8 of MP_ADD and MP_SUB (R82). -/
def Width.imm : Width → Fin 256
  | .single => 0
  | .double => 1

/-- IMM8 of MP_SUBC (R82). -/
def Correction.imm : Correction → Fin 256
  | .twoP => 0
  | .fourP => 1

/-- The opcode of a command (R84). -/
def Instr.opc : Instr → Nat
  | .mpAdd .. => 0x01
  | .mpSub .. => 0x02
  | .mpSubc .. => 0x03
  | .mpMul .. => 0x04
  | .fpMul .. => 0x05
  | .fpSqr .. => 0x06
  | .fpRdc .. => 0x07
  | .fpInv .. => 0x08
  | .fp2Mul .. => 0x09
  | .ptDbl .. => 0x0A
  | .iso4Eval .. => 0x0B
  | .iso3Eval .. => 0x0C

/-- The word of a command, unused fields zero (R80, R84, R85). -/
def encode (i : Instr) : Word :=
  match i with
  | .mpAdd wd rd rs1 rs2 => assemble i.opc rd rs1 rs2 wd.imm
  | .mpSub wd rd rs1 rs2 => assemble i.opc rd rs1 rs2 wd.imm
  | .mpSubc sel rd rs1 rs2 => assemble i.opc rd rs1 rs2 sel.imm
  | .mpMul rd rs1 rs2 => assemble i.opc rd rs1 rs2 0
  | .fpMul rd rs1 rs2 => assemble i.opc rd rs1 rs2 0
  | .fpSqr rd rs1 => assemble i.opc rd rs1 0 0
  | .fpRdc rd rs1 => assemble i.opc rd rs1 0 0
  | .fpInv rd rs1 => assemble i.opc rd rs1 0 0
  | .fp2Mul rd rs1 rs2 => assemble i.opc rd rs1 rs2 0
  | .ptDbl rd rs1 rs2 e => assemble i.opc rd rs1 rs2 e
  | .iso4Eval rd rs1 rs2 => assemble i.opc rd rs1 rs2 0
  | .iso3Eval rd rs1 rs2 => assemble i.opc rd rs1 rs2 0

end Sys2Proof
end

