-- ==== Sys2Proof/Machine/Digits.lean ====
section
/-! DEFINITION. Digits of a multiprecision value, least significant first (R11, R21, R59). -/
namespace Sys2Proof.Machine

/-- The value of a run of `w`-bit digits, the first the least significant: `Σ_j digit_j · 2^(j·w)` (R21). -/
def valueOf (w : Nat) : List Nat → Nat
  | [] => 0
  | d :: ds => d + 2 ^ w * valueOf w ds

/-- The `n` lowest `w`-bit digits of a value, least significant first (R21). -/
def digitsOf (w : Nat) : Nat → Nat → List Nat
  | 0, _ => []
  | n + 1, v => v % 2 ^ w :: digitsOf w n (v / 2 ^ w)

/-- Octet `k` of a serialised value: bits `[8k+7 : 8k]` (R59, D38). -/
def octetOf (v k : Nat) : Nat := v / 2 ^ (8 * k) % 256

end Sys2Proof.Machine
end

