-- ==== Sys2Proof/Machine/Parameters.lean ====
section
/-! DEFINITION. The derived constants of a parameter set, the default inversion chain, when a parameter set is admitted, and
the test parameter set TOY (R5 to R10, R130, R131). -/
namespace Sys2Proof

/-- `R = 2^(N·W)` (R6). -/
def Params.r (par : Params) : Nat := 2 ^ (par.n * par.w)

/-- The hard-wired `2p` (R9). -/
def Params.twoP (par : Params) : Nat := 2 * par.p

/-- The hard-wired `4p` (R9). -/
def Params.fourP (par : Params) : Nat := 4 * par.p

/-- `p·R`, the bound of the reducer's input (R9, R120). -/
def Params.pr (par : Params) : Nat := par.p * par.r

/-- `HB = max(32, W)`, the width of the host data bus (R51). -/
def Params.busWidth (par : Params) : Nat := max 32 par.w

/-- The number of cells of the slot window: `NSLOT·N` (R52). -/
def Params.windowSize (par : Params) : Nat := par.nslot * par.n

/-- The steps of the default chain for the bits `k-1, …, 0` of the exponent (R131). -/
def chainForBits (e : Nat) : Nat → List ChainStep
  | 0 => []
  | k + 1 => .sqr 0 0 :: ((if e.testBit k then [.mul 0 0 1] else []) ++ chainForBits e k)

/-- The default `INV_CHAIN`: left-to-right binary exponentiation by `p − 2` with two temporaries (R131). -/
def defaultChain (p : Nat) : List ChainStep := chainForBits (p - 2) (p - 2).log2

/-- The exponents after one step: `SQR` doubles, `MUL` adds (R130). -/
def ChainStep.exponents (es : List Nat) : ChainStep → List Nat
  | .sqr d s => es.set d (2 * es.getD s 0)
  | .mul d s1 s2 => es.set d (es.getD s1 0 + es.getD s2 0)

/-- The exponents of the temporaries after a chain, each 1 at the start (R130). -/
def chainExponents (k : Nat) (chain : List ChainStep) : List Nat :=
  chain.foldl ChainStep.exponents (List.replicate k 1)

/-- A step names temporaries of the chain only (R130). -/
def ChainStep.inBounds (k : Nat) : ChainStep → Bool
  | .sqr d s => decide (d < k) && decide (s < k)
  | .mul d s1 s2 => decide (d < k) && decide (s1 < k) && decide (s2 < k)

/-- A chain is well formed when its exponent is `p − 2` (R130). -/
abbrev Params.chainWf (par : Params) : Prop :=
  2 ≤ par.temps ∧ par.chain.all (ChainStep.inBounds par.temps) = true ∧
    (chainExponents par.temps par.chain).getD 0 0 = par.p - 2

/-- The constraints on a parameter set (R5 to R8, R130): without them no core exists for it (R7). -/
abbrev Params.admitted (par : Params) : Prop :=
  8 ≤ par.w ∧ par.w ≤ 64 ∧ par.w % 8 = 0 ∧ 1 ≤ par.n ∧ par.n ≤ 255 ∧
    par.p.Prime ∧ par.p % 4 = 3 ∧ 8 * par.p ≤ par.r ∧
    16 ≤ par.nslot ∧ par.nslot ≤ 64 ∧ par.windowSize ≤ 0xF000 ∧ par.chainWf

/-- The test parameter set TOY (R10) with the default chain (R131). Its `CORE_ID` is the model's choice (log 19). -/
def Params.toy : Params where
  w := 8
  n := 2
  p := 6911
  nslot := 64
  temps := 2
  chain := defaultChain 6911
  coreId := 0

end Sys2Proof
end

