-- ==== Sys2Proof/Machine/Reduction.lean ====
section
/-! DEFINITION. The field-layer functions of the data path: Montgomery reduction, prime-field and quadratic-extension
arithmetic (R120 to R126, R150 to R154). They are total; the range conditions are the commands' (R205). -/
namespace Sys2Proof.Machine

/-- The `k` lowest bits of `−p^(−1)`, one bit lifted at a time, for odd `p` (R120; log 21). -/
def negInverse (p : Nat) : Nat → Nat
  | 0 => 0
  | k + 1 => let x := negInverse p k
    x + (p * x + 1) / 2 ^ k % 2 * 2 ^ k

/-- `M = (−T·p^(−1)) mod R` (R120). -/
def montgomeryFactor (par : Params) (t : Nat) : Nat :=
  t * negInverse par.p (par.n * par.w) % par.r

/-- `REDC(T) = (T + M·p) / R`, without a final subtraction (R120). -/
def redc (par : Params) (t : Nat) : Nat :=
  (t + montgomeryFactor par t * par.p) / par.r

/-- The loop of the word-by-word reduction from digit `i`, `k` digits to go (R121). -/
def redcWordLoop (par : Params) : Nat → Nat → Nat → Nat
  | 0, _, t => t
  | k + 1, i, t =>
    let m := t / 2 ^ (i * par.w) % 2 ^ par.w * negInverse par.p par.w % 2 ^ par.w
    redcWordLoop par k (i + 1) (t + m * par.p * 2 ^ (i * par.w))

/-- The word-by-word textbook reduction, a conforming data path (R121); the commands use `redc`. -/
def redcWords (par : Params) (t : Nat) : Nat :=
  redcWordLoop par par.n 0 t / 2 ^ (par.n * par.w)

/-- `FPADD` (R122): the mask-selected correction is by `2p` (C1). -/
def fpAdd (par : Params) (a b : Nat) : Nat :=
  if a + b < par.twoP then a + b else a + b - par.twoP

/-- `FPSUB` (R123). -/
def fpSub (par : Params) (a b : Nat) : Nat :=
  if a < b then a + par.twoP - b else a - b

/-- `FPMUL` (R124). -/
def fpMul (par : Params) (a b : Nat) : Nat := redc par (a * b)

/-- `FPSQR` (R125). -/
def fpSqr (par : Params) (a : Nat) : Nat := redc par (a * a)

/-- A quadratic extension element `a0 + a1·i` (R14). -/
structure Fp2 where
  a0 : Nat
  a1 : Nat
  deriving DecidableEq, Repr

/-- `FP2ADD` (R150). -/
def fp2Add (par : Params) (a b : Fp2) : Fp2 := ⟨fpAdd par a.a0 b.a0, fpAdd par a.a1 b.a1⟩

/-- `FP2SUB` (R151). -/
def fp2Sub (par : Params) (a b : Fp2) : Fp2 := ⟨fpSub par a.a0 b.a0, fpSub par a.a1 b.a1⟩

/-- `FP2SQR` (R152): raw sum and doubling, one reduction per component. -/
def fp2Sqr (par : Params) (a : Fp2) : Fp2 :=
  let t1 := a.a0 + a.a1
  let t2 := fpSub par a.a0 a.a1
  let t3 := a.a0 + a.a0
  ⟨redc par (t1 * t2), redc par (t3 * a.a1)⟩

/-- `FP2MUL` (R153): three products, one reduction per component, a negative real part corrected by `p·R`. -/
def fp2Mul (par : Params) (a b : Fp2) : Fp2 :=
  let tt1 := a.a0 * b.a0
  let tt2 := a.a1 * b.a1
  let tt3 := (a.a0 + a.a1) * (b.a0 + b.a1) - tt1 - tt2
  let d := if tt1 < tt2 then tt1 + par.pr - tt2 else tt1 - tt2
  ⟨redc par d, redc par tt3⟩

end Sys2Proof.Machine
end

