-- ==== Sys2Proof/Machine/CurveArith.lean ====
section
/-! DEFINITION. The curve-layer functions: doubling and isogeny evaluation on projective points (R170 to R178). -/
namespace Sys2Proof.Machine

/-- A projective x-only point `(X : Z)` (R15). -/
structure Point where
  x : Fp2
  z : Fp2
  deriving DecidableEq, Repr

/-- The point at infinity: both components of Z are 0 modulo p (R170, C4). -/
def Point.isInfinity (par : Params) (q : Point) : Bool :=
  decide (q.z.a0 % par.p = 0) && decide (q.z.a1 % par.p = 0)

/-- One doubling, `XDBL` (R171). -/
def xdbl (par : Params) (q : Point) (a24plus c24 : Fp2) : Point :=
  let t0 := fp2Sqr par (fp2Sub par q.x q.z)
  let t1 := fp2Sqr par (fp2Add par q.x q.z)
  let z2 := fp2Mul par c24 t0
  let x2 := fp2Mul par t1 z2
  let t1 := fp2Sub par t1 t0
  let t0 := fp2Mul par a24plus t1
  let z2 := fp2Add par z2 t0
  ⟨x2, fp2Mul par z2 t1⟩

/-- `XDBL` repeated `e` times (R172). -/
def xdblTimes (par : Params) (a24plus c24 : Fp2) : Nat → Point → Point
  | 0, q => q
  | e + 1, q => xdblTimes par a24plus c24 e (xdbl par q a24plus c24)

/-- `EVAL4` (R173): X and Z are overwritten before the last lines (C6). -/
def eval4 (par : Params) (q : Point) (k0 k1 k2 : Fp2) : Point :=
  let t0 := fp2Add par q.x q.z
  let t1 := fp2Sub par q.x q.z
  let x := fp2Mul par t0 k1
  let z := fp2Mul par t1 k2
  let t0 := fp2Mul par t0 t1
  let t0 := fp2Mul par t0 k0
  let t1 := fp2Add par x z
  let z := fp2Sub par x z
  let t1 := fp2Sqr par t1
  let z := fp2Sqr par z
  let x := fp2Add par t1 t0
  let t0 := fp2Sub par z t0
  ⟨fp2Mul par x t1, fp2Mul par z t0⟩

/-- `EVAL3` (R175): the last lines use the input point's coordinates. -/
def eval3 (par : Params) (q : Point) (k0 k1 : Fp2) : Point :=
  let t0 := fp2Add par q.x q.z
  let t1 := fp2Sub par q.x q.z
  let t0 := fp2Mul par k0 t0
  let t1 := fp2Mul par k1 t1
  let t2 := fp2Add par t0 t1
  let t0 := fp2Sub par t1 t0
  let t2 := fp2Sqr par t2
  let t0 := fp2Sqr par t0
  ⟨fp2Mul par q.x t2, fp2Mul par q.z t0⟩

/-- The 4-isogeny construction host programs use, `(K0, K1, K2, A24plus', C24')` (R178, informative; no command). -/
def get4Isog (par : Params) (q : Point) : (Fp2 × Fp2 × Fp2) × Fp2 × Fp2 :=
  let k1 := fp2Sub par q.x q.z
  let k2 := fp2Add par q.x q.z
  let k0 := fp2Sqr par q.z
  let k0 := fp2Add par k0 k0
  let c24 := fp2Sqr par k0
  let k0 := fp2Add par k0 k0
  let a24 := fp2Sqr par q.x
  let a24 := fp2Add par a24 a24
  let a24 := fp2Sqr par a24
  ((k0, k1, k2), a24, c24)

/-- The 3-isogeny construction host programs use, `(K0, K1, A24minus', A24plus')` (R178, informative; no command). -/
def get3Isog (par : Params) (q : Point) : (Fp2 × Fp2) × Fp2 × Fp2 :=
  let k0 := fp2Sub par q.x q.z
  let t0 := fp2Sqr par k0
  let k1 := fp2Add par q.x q.z
  let t1 := fp2Sqr par k1
  let t2 := fp2Add par t0 t1
  let t3 := fp2Add par k0 k1
  let t3 := fp2Sqr par t3
  let t3 := fp2Sub par t3 t2
  let t2 := fp2Add par t1 t3
  let t3 := fp2Add par t3 t0
  let t4 := fp2Add par t0 t3
  let t4 := fp2Add par t4 t4
  let t4 := fp2Add par t1 t4
  let a24minus := fp2Mul par t2 t4
  let t4 := fp2Add par t1 t2
  let t4 := fp2Add par t4 t4
  let t4 := fp2Add par t0 t4
  let t4 := fp2Mul par t3 t4
  let t0 := fp2Sub par t4 a24minus
  ((k0, k1), a24minus, fp2Add par a24minus t0)

end Sys2Proof.Machine
end

