-- ==== Sys2Proof/Machine/State.lean ====
section
/-! DEFINITION. The state of the core and of the host port, the reasons a step can record or stop with, and the state after
reset (10_state.md; R206; R36). -/
namespace Sys2Proof.Machine

/-- A digit of a slot: its value and its written bit (R20, R35). The value of an unwritten digit is a placeholder that no
read returns (logs 3, 4). -/
structure Digit where
  val : Nat
  written : Bool
  deriving DecidableEq, Repr

/-- A slot: its `N` digits, least significant first (R21). -/
abbrev Slot := List Digit

/-- The source values sampled at acceptance, one number per slot of the RS1 group and of the RS2 group (R30, R31). -/
structure Sources where
  rs1 : List Nat
  rs2 : List Nat
  deriving DecidableEq, Repr

/-- The sequencer (R31): idle, running a command with its sampled sources, or wiping (R232). -/
inductive Sequencer where
  | idle
  | running (i : Instr) (src : Sources)
  | wiping
  deriving DecidableEq, Repr

/-- What the host may do to the core (R55, R68). A written value is held in 64 bits, of which the bus
carries its own HB (R51; log 12). -/
inductive HostAction where
  | read (a : CellAddr)
  | write (a : CellAddr) (v : BusWord)
  | reset
  deriving DecidableEq, Repr

/-- A host action and, if a command or wipe is in progress when its turn comes, whether it reaches the core before the
completion. The spec admits both orders (R204(c), U15; log 7). -/
structure Arrival where
  act : HostAction
  overtakes : Bool
  deriving DecidableEq, Repr

/-- The fault reasons of the model's fault record (R206). A step records one and goes on as the chip does (log 2);
`Safety.strictStep` stops with it. -/
inductive Fault where
  /-- Recorded by a CMD write of an illegal word while idle (R202). Safe: the chip's own effect, STATUS.ILL, is modelled. -/
  | illegalCommand (e : IllCode)
  /-- Recorded by a write that is dropped because the core is busy (R203). Safe: the chip's own effect is modelled. -/
  | busyHazard (e : HazCode)
  /-- Recorded at acceptance when a sampled source is out of range: the opcode, and the first such component (R205). Safe:
  the results are free values. -/
  | preconditionViolation (opc : Nat) (field : SrcField) (component : Nat)
  /-- Recorded at acceptance when a source digit is unwritten: the first such digit (R204, R205). Safe: the digit samples as
  a free value. -/
  | unwrittenSource (slot digit : Nat)
  /-- Recorded at a host read of an unwritten digit while idle (R205). Safe: the read returns a free value. -/
  | unwrittenRead (slot digit : Nat)
  deriving DecidableEq, Repr

/-- Why the model has no meaning to give. -/
inductive Refusal where
  /-- Answered by `exec` for a command without a meaning yet; no arm answers it now. Safe: nothing is claimed. -/
  | notModelled (mnemonic : String)
  /-- Answered by `buildCore` for a parameter set that no core exists for (R7, R130, U11, U12). Safe: no run starts. -/
  | parameterSet
  deriving DecidableEq, Repr

/-- The state of the machine. -/
structure State where
  /-- The parameters of the instance, read-only (R5 to R8, R25, R130; log 1). -/
  par : Params
  /-- The slot file `S[0..NSLOT-1]` (R20). -/
  slots : List Slot
  /-- The carry flag CF (R23). -/
  cf : Bool
  /-- STATUS.ILL (R27). -/
  ill : Bool
  /-- STATUS.HAZ (R27). -/
  haz : Bool
  /-- STATUS.ECODE (R27, R201). -/
  ecode : ECode
  /-- The last accepted command word, what CMD reads (R29). -/
  cmd : Word
  /-- The sequencer and what it holds; STATUS.BUSY is a view of it (R31, R32). -/
  seq : Sequencer
  /-- The hidden temporaries of the data path; nothing reads them (R32; log 9). -/
  temps : List Nat
  /-- The fault record, a list without repeats, the earliest first (R206; log 15). -/
  faults : List Fault
  /-- The model's own: how many free values have been taken (log 6). -/
  draws : Nat
  /-- The model's own: what the host still does, the next first (log 7). -/
  inputs : List Arrival
  /-- The value the host's last read returned (R55; log 12). -/
  readData : BusWord
  deriving DecidableEq, Repr

/-- An unwritten digit (R35, R36; the placeholder value is the model's, log 3). -/
def Digit.unwritten : Digit := ⟨0, false⟩

/-- The slot file after reset: every digit unwritten (R36). -/
def resetSlots (par : Params) : List Slot :=
  List.replicate par.nslot (List.replicate par.n Digit.unwritten)

/-- The state of an instance with parameters `par` after power-on (R36, R230). -/
def State.resetOf (par : Params) : State where
  par := par
  slots := resetSlots par
  cf := false
  ill := false
  haz := false
  ecode := .none
  cmd := 0
  seq := .idle
  temps := List.replicate par.temps 0
  faults := []
  draws := 0
  inputs := []
  readData := 0

/-- The machine right after reset: the instance TOY (R10; log 1). -/
def State.reset : State := State.resetOf Params.toy

end Sys2Proof.Machine
end

