-- ==== Sys2Proof/Machine/Operands.lean ====
section
/-! DEFINITION. Every operand form: reading a group's slots as a number, an FP2 element, a point or coefficients (R22),
sampling a source group (R31), the range each command requires of its sources (R205), and writing a group (R30). -/
namespace Sys2Proof.Machine

/-- Component `k` of a sampled group: the value of its slot `k` (R22). -/
def component (g : List Nat) (k : Nat) : Nat := g.getD k 0

/-- A field-element operand (R22, FE). -/
def feOf (g : List Nat) : Nat := component g 0

/-- A double-width operand, low half first: `S2 = S[s] + S[s+1]·R` (R13, R22, DW). -/
def dwOf (par : Params) (g : List Nat) : Nat := component g 0 + component g 1 * par.r

/-- The FP2 element at components `k`, `k + 1` (R14, R22). -/
def fp2At (g : List Nat) (k : Nat) : Fp2 := ⟨component g k, component g (k + 1)⟩

/-- A point operand `X0, X1, Z0, Z1` (R15, R22, PT). -/
def pointOf (g : List Nat) : Point := ⟨fp2At g 0, fp2At g 2⟩

/-- An operand of MP_ADD or MP_SUB: FE, or DW if the DW bit is set (R85, R100). -/
def mpOf (par : Params) (wd : Width) (g : List Nat) : Nat :=
  match wd with
  | .single => feOf g
  | .double => dwOf par g

/-- The modulus of a width: `M = 2^(w·N·W)` (R100). -/
def widthModulus (par : Params) : Width → Nat
  | .single => par.r
  | .double => par.r * par.r

/-- A value as the slots of a double-width group: `v mod R`, then `v div R` (R13, R22). -/
def dwSlots (par : Params) (v : Nat) : List Nat := [v % par.r, v / par.r]

/-- A value as the slots of an FE or DW destination (R100). -/
def mpSlots (par : Params) (wd : Width) (v : Nat) : List Nat :=
  match wd with
  | .single => [v]
  | .double => dwSlots par v

/-- The slots of an FP2 element (R14). -/
def fp2Slots (a : Fp2) : List Nat := [a.a0, a.a1]

/-- The slots of a point (R15). -/
def pointSlots (q : Point) : List Nat := [q.x.a0, q.x.a1, q.z.a0, q.z.a1]

/-- The multiple of the prime that MP_SUBC adds (R102). -/
def correctionMultiple (par : Params) : Correction → Nat
  | .twoP => par.twoP
  | .fourP => par.fourP

/-- A slot of the slot file; past its end an empty one (no legal command gets there, R88). -/
def slotAt (slots : List Slot) (s : Nat) : Slot := slots.getD s []

/-- The stored value of a slot, `S[s]` (R21). -/
def slotValue (par : Params) (sl : Slot) : Nat := valueOf par.w (sl.map Digit.val)

/-- Every digit of a slot is written (R35). -/
def slotWritten (sl : Slot) : Bool := sl.all Digit.written

/-- What sampling a digit gives: its value, or the `k`-th free value if it is unwritten (R36, U2; log 4). -/
def sampleDigit (par : Params) (k : Nat) (d : Digit) : Nat :=
  if d.written then d.val else Config.draw k % 2 ^ par.w

/-- The digits of a slot as sampled, the free values numbered from `k`. -/
def sampleDigits (par : Params) : Nat → Slot → List Nat
  | _, [] => []
  | k, d :: ds => sampleDigit par k d :: sampleDigits par (k + 1) ds

/-- Slot `s` as sampled: digit `j`'s free value is the one numbered `s·N + j` from `draws`, so a slot named as two sources
gives the same value to both (R30, R31). -/
def sampleSlot (par : Params) (slots : List Slot) (draws s : Nat) : Nat :=
  valueOf par.w (sampleDigits par (draws + s * par.n) (slotAt slots s))

/-- The slots of an optional operand. -/
def optionSlots : Option Operand → List Nat
  | none => []
  | some o => o.slots

/-- The source slots of a command, RS1's group then RS2's (R204(b)). -/
def sourceSlots (i : Instr) : List Nat := i.src1.slots ++ optionSlots i.src2

/-- The source values of a command as the slot file stands (R30, R31). -/
def sampleSources (par : Params) (slots : List Slot) (draws : Nat) (i : Instr) : Sources where
  rs1 := i.src1.slots.map (sampleSlot par slots draws)
  rs2 := (optionSlots i.src2).map (sampleSlot par slots draws)

/-- The first unwritten digit of a slot, counted from `j`. -/
def firstUnwrittenDigit : Nat → Slot → Option Nat
  | _, [] => none
  | j, d :: ds => if d.written then firstUnwrittenDigit (j + 1) ds else some j

/-- The first unwritten digit of a list of slots, digit 0 first (R204(b)). -/
def firstUnwritten (slots : List Slot) : List Nat → Option (Nat × Nat)
  | [] => none
  | s :: ss =>
    match firstUnwrittenDigit 0 (slotAt slots s) with
    | some j => some (s, j)
    | none => firstUnwritten slots ss

/-- The first component not below a bound, counted from `k`. -/
def firstNotBelow (bound : Nat) : Nat → List Nat → Option Nat
  | _, [] => none
  | k, v :: vs => if v < bound then firstNotBelow bound (k + 1) vs else some k

/-- The first source component that is not below `2p`, RS1's group then RS2's (R204(b), R205). -/
def firstOverTwoP (par : Params) (src : Sources) : Option (SrcField × Nat) :=
  match firstNotBelow par.twoP 0 src.rs1 with
  | some k => some (.rs1, k)
  | none => (firstNotBelow par.twoP 0 src.rs2).map (SrcField.rs2, ·)

/-- The first violated `require` of a command (the table of R205); `none` if its sources are in range. -/
def violation (par : Params) (i : Instr) (src : Sources) : Option (SrcField × Nat) :=
  match i with
  | .mpAdd .. => none
  | .mpSub .. => none
  | .mpSubc .. => none
  | .mpMul .. => none
  | .fpRdc .. => if dwOf par src.rs1 < par.pr then none else some (.rs1, 0)
  | .fpMul .. => firstOverTwoP par src
  | .fpSqr .. => firstOverTwoP par src
  | .fpInv .. => firstOverTwoP par src
  | .fp2Mul .. => firstOverTwoP par src
  | .ptDbl .. => firstOverTwoP par src
  | .iso4Eval .. => firstOverTwoP par src
  | .iso3Eval .. => firstOverTwoP par src

/-- The sources are in the command's accepted range (R18, R205). -/
def inRange (par : Params) (i : Instr) (src : Sources) : Bool := (violation par i src).isNone

/-- A digit in canonical form: below `2^W`, and the placeholder 0 if unwritten (R20, R35; log 13). -/
def digitWf (par : Params) (d : Digit) : Bool := decide (d.val < 2 ^ par.w) && (d.written || decide (d.val = 0))

/-- A slot in canonical form: N digits (R20, R21). -/
def slotWf (par : Params) (sl : Slot) : Bool := decide (sl.length = par.n) && sl.all (digitWf par)

/-- The slot file in canonical form: NSLOT slots. Equal slot files are equal data (R20; log 13). -/
def slotFileWf (par : Params) (slots : List Slot) : Bool := decide (slots.length = par.nslot) && slots.all (slotWf par)

/-- A slot that holds a value, every digit written: `S[s] <- v` keeps `v mod R` (R21, R35). -/
def writtenSlot (par : Params) (v : Nat) : Slot := (digitsOf par.w par.n v).map (Digit.mk · true)

/-- Writing consecutive slots from a base (R22, R30). -/
def writeSlots (par : Params) : List Slot → Nat → List Nat → List Slot
  | slots, _, [] => slots
  | slots, s, v :: vs => writeSlots par (slots.set s (writtenSlot par v)) (s + 1) vs

/-- `count` free slot values, numbered from `k` (R207; log 5). -/
def freeSlots (par : Params) (k count : Nat) : List Nat :=
  (List.range count).map fun j => Config.draw (k + j) % par.r

end Sys2Proof.Machine
end

