-- ==== Sys2Proof/Machine/Flags.lean ====
section
/-! DEFINITION. The carry flag's computations (R23, R100, R101) and the STATUS and PARAM words (R26, R27, R201). -/
namespace Sys2Proof.Machine

/-- The carry out of an addition of width `m`: `s div M` (R100). -/
def carryOut (m a b : Nat) : Bool := decide ((a + b) / m = 1)

/-- The borrow out of a subtraction (R101). -/
def borrowOut (a b : Nat) : Bool := decide (a < b)

/-- The difference modulo `m`, for `a, b < m` (R101). -/
def wrapSub (m a b : Nat) : Nat := (a + m - b) % m

/-- ECODE 1 to 4 (R201). -/
def illNumber : IllCode → Nat
  | .illOpc => 1
  | .illZero => 2
  | .illImm => 3
  | .illRange => 4

/-- ECODE 5 to 7 (R201). -/
def hazNumber : HazCode → Nat
  | .hazCmd => 5
  | .hazSlot => 6
  | .hazWipe => 7

/-- The number in STATUS.ECODE (R201). -/
def ecodeNumber : ECode → Nat
  | .none => 0
  | .ill e => illNumber e
  | .haz e => hazNumber e

/-- STATUS.BUSY: 1 from the acceptance of a command or wipe until its completion (R27, R31). -/
def State.busy (s : State) : Bool :=
  match s.seq with
  | .idle => false
  | .running _ _ => true
  | .wiping => true

/-- STATUS as the host reads it; reserved bits read 0 (R27). -/
def State.statusWord (s : State) : Word :=
  BitVec.ofNat 32 (s.busy.toNat + s.ill.toNat * 2 + s.haz.toNat * 2 ^ 2 + ecodeNumber s.ecode * 2 ^ 4 +
    s.cf.toNat * 2 ^ 8)

/-- PARAM as the host reads it: W, N, NSLOT and the version 1 (R26). -/
def paramWord (par : Params) : Word :=
  BitVec.ofNat 32 (par.w + par.n * 2 ^ 8 + par.nslot * 2 ^ 16 + 1 * 2 ^ 24)

/-- A host write of `v` to STATUS: write 1 to clear ILL and HAZ; ECODE is cleared when both are 0 after that (R27). -/
def State.clearStatus (v : BusWord) (s : State) : State :=
  let ill := s.ill && !v.getLsbD 1
  let haz := s.haz && !v.getLsbD 2
  { s with
    ill := ill
    haz := haz
    ecode := if ill || haz then s.ecode else .none }

end Sys2Proof.Machine
end

