-- ==== Sys2Proof/Machine/Ops.lean ====
section
/-! DEFINITION. The shared operations of the core: the fault record and the architected errors (R200 to R206), acceptance
and completion of a command (R31), the wipe (R232) and the reset input (R230). The core has no trap and no return from one
(R209): what an error does is `refuse` and `hazard`. -/
namespace Sys2Proof.Machine

/-- Adding a reason to the fault record, a set (R206; log 15). -/
def addFault (r : Fault) (rs : List Fault) : List Fault := if r ∈ rs then rs else rs ++ [r]

/-- `IllegalCommand(e)`: ILL, ECODE, and the model's record; nothing else (R202). -/
def State.refuse (e : IllCode) (s : State) : State :=
  { s with ill := true, ecode := .ill e, faults := addFault (.illegalCommand e) s.faults }

/-- `BusyHazard(e)`: HAZ, ECODE, and the model's record; the write is dropped (R203). -/
def State.hazard (e : HazCode) (s : State) : State :=
  { s with haz := true, ecode := .haz e, faults := addFault (.busyHazard e) s.faults }

/-- The value of slot `k`, `S[k]` (R20, R21). -/
def State.slot (s : State) (k : Nat) : Nat := slotValue s.par (slotAt s.slots k)

/-- The first unwritten source digit of a command (R204(b), R205). -/
def State.unwritten (i : Instr) (s : State) : Option (Nat × Nat) := firstUnwritten s.slots (sourceSlots i)

/-- The sources of a command as the slot file stands now. -/
def State.sample (i : Instr) (s : State) : Sources := sampleSources s.par s.slots s.draws i

/-- The model fault of an accepted command, if any: an unwritten source first, then an out-of-range operand (R204(b)). -/
def State.acceptFault (i : Instr) (s : State) : Option Fault :=
  match s.unwritten i with
  | some (k, j) => some (.unwrittenSource k j)
  | none => (violation s.par i (s.sample i)).map fun (f, k) => .preconditionViolation i.opc f k

/-- Adding the reason, if there is one. -/
def recordFault (r : Option Fault) (rs : List Fault) : List Fault :=
  match r with
  | none => rs
  | some r => addFault r rs

/-- Acceptance of the command `i` of word `c`: CMD, BUSY, the sampled sources, and the model's record (R31, R205). The
counter of free values moves only if a source digit is unwritten. -/
def State.accept (c : Word) (i : Instr) (s : State) : State :=
  { s with
    cmd := c
    seq := .running i (s.sample i)
    faults := recordFault (s.acceptFault i) s.faults
    draws := if (s.unwritten i).isNone then s.draws else s.draws + s.par.windowSize }

/-- A command word submitted while idle: accepted if legal, else refused (R29, R31, R202). -/
def State.submit (c : Word) (s : State) : State :=
  match legality s.par.nslot c with
  | .error e => s.refuse e
  | .ok i => s.accept c i

/-- The sources a command runs on: those the sequencer sampled for it at acceptance; where the sequencer holds none for it,
the slot file as it stands (R30, R31; log 10). -/
def State.sourcesOf (i : Instr) (s : State) : Sources :=
  match s.seq with
  | .running j src => if j = i then src else s.sample i
  | .idle => s.sample i
  | .wiping => s.sample i

/-- What a command's rule gives: its destination slots in order, CF if it writes it, and the hidden temporaries if its rule
names them (R31, R32). -/
structure Effect where
  dsts : List Nat
  cf : Option Bool := none
  temps : Option (List Nat) := none

/-- Completion with sources in range: every destination slot, CF where the rule says, idle again (R30, R31). -/
def State.retire (i : Instr) (src : Sources) (e : Effect) (s : State) : State :=
  { s with
    slots := writeSlots s.par s.slots i.dst.base.val e.dsts
    cf := e.cf.getD s.cf
    temps := e.temps.getD (Config.hiddenTemps (encode i) src.rs1 src.rs2)
    seq := .idle }

/-- Completion of a command whose sources are out of range: every destination slot holds a free value, CF is unchanged, no
STATUS bit is set (R207; log 5). -/
def State.retireUnspecified (i : Instr) (src : Sources) (s : State) : State :=
  { s with
    slots := writeSlots s.par s.slots i.dst.base.val (freeSlots s.par s.draws i.dst.group.width)
    temps := Config.hiddenTemps (encode i) src.rs1 src.rs2
    draws := s.draws + i.dst.group.width
    seq := .idle }

/-- Completion of command `i` whose rule is `op` (R31). -/
def State.complete (i : Instr) (op : Sources → Effect) (s : State) : State :=
  if inRange s.par i (s.sourcesOf i) then s.retire i (s.sourcesOf i) (op (s.sourcesOf i))
  else s.retireUnspecified i (s.sourcesOf i)

/-- `wipe_start()` (R232). -/
def State.wipeStart (s : State) : State := { s with seq := .wiping }

/-- The slot file after a wipe: every digit 0 and written (R232). -/
def wipedSlots (slots : List Slot) : List Slot := slots.map fun sl => sl.map fun _ => ⟨0, true⟩

/-- `wipe_complete()` (R232): ILL, HAZ, ECODE and CMD are not changed. -/
def State.wipeComplete (s : State) : State :=
  { s with
    slots := wipedSlots s.slots
    cf := false
    temps := s.temps.map fun _ => 0
    seq := .idle }

/-- The reset input (R230): every piece of the core's state takes its reset value and what runs is abandoned; the fault
record stays. What is not the core's (the parameters, the host's queue, the bus) stays too (log 16). -/
def State.resetInput (s : State) : State :=
  { s with
    slots := resetSlots s.par
    cf := false
    ill := false
    haz := false
    ecode := .none
    cmd := 0
    seq := .idle
    temps := Config.lostTemps s.draws
    draws := s.draws + 1 }

/-- Building an instance: a parameter set that R7 or R130 does not admit is refused, no core exists for it. -/
def buildCore (par : Params) : Host.Outcome State Fault Refusal :=
  if par.admitted then .next (State.resetOf par) else .refused .parameterSet

end Sys2Proof.Machine
end

