-- ==== Sys2Proof/Machine/Curve.lean ====
section
/-! DEFINITION. The curve layer's commands: PT_DBL, ISO4_EVAL, ISO3_EVAL (43_curve_isogeny.md). -/
namespace Sys2Proof.Machine

/-- PT_DBL (R172): A24plus is the first half of the curve pair, C24 the second. -/
def execPtDbl (rd rs1 rs2 : SlotIx) (e : Fin 256) (s : State) : Host.Outcome State Fault Refusal :=
  .next <| s.complete (.ptDbl rd rs1 rs2 e) fun src =>
    { dsts := pointSlots (xdblTimes s.par (fp2At src.rs2 0) (fp2At src.rs2 2) e.val (pointOf src.rs1)) }

/-- ISO4_EVAL (R174). -/
def execIso4Eval (rd rs1 rs2 : SlotIx) (s : State) : Host.Outcome State Fault Refusal :=
  .next <| s.complete (.iso4Eval rd rs1 rs2) fun src =>
    { dsts := pointSlots (eval4 s.par (pointOf src.rs1) (fp2At src.rs2 0) (fp2At src.rs2 2) (fp2At src.rs2 4)) }

/-- ISO3_EVAL (R176). -/
def execIso3Eval (rd rs1 rs2 : SlotIx) (s : State) : Host.Outcome State Fault Refusal :=
  .next <| s.complete (.iso3Eval rd rs1 rs2) fun src =>
    { dsts := pointSlots (eval3 s.par (pointOf src.rs1) (fp2At src.rs2 0) (fp2At src.rs2 2)) }

end Sys2Proof.Machine
end

