-- ==== Sys2Proof/Machine/ExtensionField.lean ====
section
/-! DEFINITION. The quadratic extension layer's command: FP2_MUL (42_extension_field.md, section 2). -/
namespace Sys2Proof.Machine

/-- FP2_MUL (R155). -/
def execFp2Mul (rd rs1 rs2 : SlotIx) (s : State) : Host.Outcome State Fault Refusal :=
  .next <| s.complete (.fp2Mul rd rs1 rs2) fun src =>
    { dsts := fp2Slots (fp2Mul s.par (fp2At src.rs1 0) (fp2At src.rs2 0)) }

end Sys2Proof.Machine
end

