-- ==== Sys2Proof/Machine/Multiprecision.lean ====
section
/-! DEFINITION. The multiprecision engine: MP_ADD, MP_SUB, MP_SUBC, MP_MUL (40_multiprecision.md). -/
namespace Sys2Proof.Machine

/-- MP_ADD (R100). -/
def execMpAdd (wd : Width) (rd rs1 rs2 : SlotIx) (s : State) : Host.Outcome State Fault Refusal :=
  .next <| s.complete (.mpAdd wd rd rs1 rs2) fun src =>
    let m := widthModulus s.par wd
    let a := mpOf s.par wd src.rs1
    let b := mpOf s.par wd src.rs2
    { dsts := mpSlots s.par wd ((a + b) % m), cf := some (carryOut m a b) }

/-- MP_SUB (R101). -/
def execMpSub (wd : Width) (rd rs1 rs2 : SlotIx) (s : State) : Host.Outcome State Fault Refusal :=
  .next <| s.complete (.mpSub wd rd rs1 rs2) fun src =>
    let m := widthModulus s.par wd
    let a := mpOf s.par wd src.rs1
    let b := mpOf s.par wd src.rs2
    { dsts := mpSlots s.par wd (wrapSub m a b), cf := some (borrowOut a b) }

/-- MP_SUBC (R102): CF is unchanged. -/
def execMpSubc (sel : Correction) (rd rs1 rs2 : SlotIx) (s : State) : Host.Outcome State Fault Refusal :=
  .next <| s.complete (.mpSubc sel rd rs1 rs2) fun src =>
    { dsts := [wrapSub s.par.r (feOf src.rs1 + correctionMultiple s.par sel) (feOf src.rs2)] }

/-- MP_MUL (R103): the exact product. -/
def execMpMul (rd rs1 rs2 : SlotIx) (s : State) : Host.Outcome State Fault Refusal :=
  .next <| s.complete (.mpMul rd rs1 rs2) fun src =>
    { dsts := dwSlots s.par (feOf src.rs1 * feOf src.rs2) }

/-- One row of the operand-scanning loop: `t <- C[i+j] + A[i]·B[j] + carry`, digits modulo `2^W`, the carry last (R103). -/
def schoolbookRow (w a : Nat) : List Nat → List Nat → Nat → List Nat
  | b :: bs, c :: cs, carry =>
    let t := c + a * b + carry
    t % 2 ^ w :: schoolbookRow w a bs cs (t / 2 ^ w)
  | _, _, carry => [carry]

/-- The operand-scanning loop, a conforming data path (R103): the digits of the product, `acc` the accumulator's current
window. MP_MUL uses the exact product. -/
def schoolbookLoop (w : Nat) (bs : List Nat) : List Nat → List Nat → List Nat
  | [], acc => acc
  | a :: as, acc =>
    match schoolbookRow w a bs acc 0 with
    | [] => []
    | d :: ds => d :: schoolbookLoop w bs as ds

end Sys2Proof.Machine
end

