-- ==== Sys2Proof/Machine/PrimeField.lean ====
section
/-! DEFINITION. The prime field layer's commands: FP_MUL, FP_SQR, FP_RDC, FP_INV (41_prime_field.md, section 2). -/
namespace Sys2Proof.Machine

/-- FP_MUL (R127). -/
def execFpMul (rd rs1 rs2 : SlotIx) (s : State) : Host.Outcome State Fault Refusal :=
  .next <| s.complete (.fpMul rd rs1 rs2) fun src =>
    { dsts := [fpMul s.par (feOf src.rs1) (feOf src.rs2)] }

/-- FP_SQR (R128). -/
def execFpSqr (rd rs1 : SlotIx) (s : State) : Host.Outcome State Fault Refusal :=
  .next <| s.complete (.fpSqr rd rs1) fun src => { dsts := [fpSqr s.par (feOf src.rs1)] }

/-- FP_RDC (R129). -/
def execFpRdc (rd rs1 : SlotIx) (s : State) : Host.Outcome State Fault Refusal :=
  .next <| s.complete (.fpRdc rd rs1) fun src => { dsts := [redc s.par (dwOf s.par src.rs1)] }

/-- One step of the inversion chain on the temporaries (R130). -/
def chainStep (par : Params) (ts : List Nat) : ChainStep → List Nat
  | .sqr d x => ts.set d (fpSqr par (ts.getD x 0))
  | .mul d x y => ts.set d (fpMul par (ts.getD x 0) (ts.getD y 0))

/-- The temporaries after the chain, each starting as `a` (R132). -/
def runChain (par : Params) (a : Nat) : List Nat :=
  par.chain.foldl (chainStep par) (List.replicate par.temps a)

/-- FP_INV (R132): the result is `t[0]`; the chain's temporaries stay behind as hidden state (R32). -/
def execFpInv (rd rs1 : SlotIx) (s : State) : Host.Outcome State Fault Refusal :=
  .next <| s.complete (.fpInv rd rs1) fun src =>
    let ts := runChain s.par (feOf src.rs1)
    { dsts := [ts.getD 0 0], temps := some ts }

end Sys2Proof.Machine
end

