-- ==== Sys2Proof/Machine/Dispatch.lean ====
section
/-! DEFINITION. The meaning of each command, one arm per row of the opcode map (R84). -/
namespace Sys2Proof.Machine

def exec (i : Instr) (s : State) : Host.Outcome State Fault Refusal :=
  match i with
  | .mpAdd wd rd rs1 rs2 => Sys2Proof.Machine.execMpAdd wd rd rs1 rs2 s
  | .mpSub wd rd rs1 rs2 => Sys2Proof.Machine.execMpSub wd rd rs1 rs2 s
  | .mpSubc sel rd rs1 rs2 => Sys2Proof.Machine.execMpSubc sel rd rs1 rs2 s
  | .mpMul rd rs1 rs2 => Sys2Proof.Machine.execMpMul rd rs1 rs2 s
  | .fpMul rd rs1 rs2 => Sys2Proof.Machine.execFpMul rd rs1 rs2 s
  | .fpSqr rd rs1 => Sys2Proof.Machine.execFpSqr rd rs1 s
  | .fpRdc rd rs1 => Sys2Proof.Machine.execFpRdc rd rs1 s
  | .fpInv rd rs1 => Sys2Proof.Machine.execFpInv rd rs1 s
  | .fp2Mul rd rs1 rs2 => Sys2Proof.Machine.execFp2Mul rd rs1 rs2 s
  | .ptDbl rd rs1 rs2 e => Sys2Proof.Machine.execPtDbl rd rs1 rs2 e s
  | .iso4Eval rd rs1 rs2 => Sys2Proof.Machine.execIso4Eval rd rs1 rs2 s
  | .iso3Eval rd rs1 rs2 => Sys2Proof.Machine.execIso3Eval rd rs1 rs2 s

end Sys2Proof.Machine
end

