-- ==== Sys2Proof/Machine/HostPort.lean ====
section
/-! DEFINITION. The host's transactions on the cell map (20_memory.md): which cell an address is, reads, writes, and the
reset input (R50 to R68). -/
namespace Sys2Proof.Machine

/-- What a cell of the host address space is (R52). -/
inductive Cell where
  | id
  | param
  | status
  | ctrl
  | cmd
  /-- Digit `digit` of slot `slot` (R53). -/
  | digit (slot digit : Nat)
  | reserved
  deriving DecidableEq, Repr

/-- The width of a cell: 32 bits for a register and a reserved cell, `W` for a digit (R51). -/
def Cell.width (par : Params) : Cell → Nat
  | .id => 32
  | .param => 32
  | .status => 32
  | .ctrl => 32
  | .cmd => 32
  | .digit _ _ => par.w
  | .reserved => 32

/-- What the bus carries of a value: its low HB bits (R51, R55). -/
def busValue (par : Params) (v : BusWord) : BusWord := BitVec.ofNat 64 (v.toNat % 2 ^ par.busWidth)

/-- The first cell of the slot window (R52). -/
def windowBase : Nat := 0x1000

/-- The cell map: registers, the slot window with cell `0x1000 + s·N + j` = digit `j` of slot `s`, all else reserved (R52
to R54). -/
def cellOf (par : Params) (a : CellAddr) : Cell :=
  match a.toNat with
  | 0 => .id
  | 1 => .param
  | 2 => .status
  | 3 => .ctrl
  | 4 => .cmd
  | k => if windowBase ≤ k ∧ k < windowBase + par.windowSize then
      .digit ((k - windowBase) / par.n) ((k - windowBase) % par.n)
    else .reserved

/-- The address of digit `j` of slot `s` (R53). -/
def digitAddr (par : Params) (s j : Nat) : CellAddr := BitVec.ofNat 16 (windowBase + s * par.n + j)

/-- Digit `j` of slot `s` (R21). -/
def State.digit (s : State) (k j : Nat) : Digit := (slotAt s.slots k).getD j Digit.unwritten

/-- A host write of a digit while idle: the low W bits, marked written (R55, R57). -/
def State.setDigit (k j : Nat) (v : BusWord) (s : State) : State :=
  { s with slots := s.slots.set k ((slotAt s.slots k).set j ⟨v.toNat % 2 ^ s.par.w, true⟩) }

/-- A read that returns `v`: no other effect (R56). -/
def State.returns (v : BusWord) (s : State) : State := { s with readData := v }

/-- A read that returns an unspecified W-bit value, zero-extended: a free value (R56, U3; log 6). -/
def State.returnsFree (s : State) : State :=
  { s with readData := BitVec.ofNat 64 (Config.draw s.draws % 2 ^ s.par.w), draws := s.draws + 1 }

/-- A read of a slot cell: the digit; while busy a free value; an unwritten digit is recorded and reads as a free value
(R56, R205; log 4). -/
def State.readDigit (k j : Nat) (s : State) : State :=
  if s.busy then s.returnsFree
  else if (s.digit k j).written then s.returns (BitVec.ofNat 64 (s.digit k j).val)
  else { s.returnsFree with faults := addFault (.unwrittenRead k j) s.faults }

/-- `MemRead(a, 1)` (R55, R68). -/
def State.hostRead (a : CellAddr) (s : State) : State :=
  match cellOf s.par a with
  | .id => s.returns (s.par.coreId.setWidth 64)
  | .param => s.returns ((paramWord s.par).setWidth 64)
  | .status => s.returns (s.statusWord.setWidth 64)
  | .ctrl => s.returns 0
  | .cmd => s.returns (s.cmd.setWidth 64)
  | .digit k j => s.readDigit k j
  | .reserved => s.returns 0

/-- A write of `v` to CTRL: bit 0 starts a wipe, or is the busy hazard 7; without it nothing happens (R28). -/
def State.writeCtrl (v : BusWord) (s : State) : State :=
  if v.getLsbD 0 then (if s.busy then s.hazard .hazWipe else s.wipeStart) else s

/-- A write of `v` to CMD: a submission, or the busy hazard 5; the low 32 bits are the command word (R29, R55). -/
def State.writeCmd (v : BusWord) (s : State) : State :=
  if s.busy then s.hazard .hazCmd else s.submit (v.setWidth 32)

/-- A write of `v` to a slot cell: sets the digit, or is the busy hazard 6 (R57). -/
def State.writeDigit (k j : Nat) (v : BusWord) (s : State) : State :=
  if s.busy then s.hazard .hazSlot else s.setDigit k j v

/-- `MemWrite(a, 1, v)` with the value `v` the bus carries (R55, R58, R68): each cell uses the low bits it has; writes to ID,
PARAM and reserved cells are ignored. -/
def State.hostWrite (a : CellAddr) (v : BusWord) (s : State) : State :=
  match cellOf s.par a with
  | .id => s
  | .param => s
  | .status => s.clearStatus v
  | .ctrl => s.writeCtrl v
  | .cmd => s.writeCmd v
  | .digit k j => s.writeDigit k j v
  | .reserved => s

/-- What a host action does (R68); a written value crosses the bus (R51). -/
def State.perform (act : HostAction) (s : State) : State :=
  match act with
  | .read a => s.hostRead a
  | .write a v => s.hostWrite a (busValue s.par v)
  | .reset => s.resetInput

end Sys2Proof.Machine
end

