-- ==== Sys2Proof/Machine/Step.lean ====
section
/-! DEFINITION. One step of the machine: the host's next action or the sequencer's completion (R31, R63, R204(c), R241). -/
namespace Sys2Proof.Machine

/-- The completion step of the sequencer: the pending command's meaning, or the end of a wipe (R31, R232). Idle, nothing is
pending and nothing happens (R215). -/
def sequencerStep (s : State) : Host.Outcome State Fault Refusal :=
  match s.seq with
  | .idle => .next s
  | .running i _ => exec i s
  | .wiping => .next s.wipeComplete

/-- One step. The host's next action is performed, unless a command or wipe is in progress that the action does not
overtake: then that completes first. With nothing left for the host to do, what is in progress completes (R241, U16) and an
idle core stays as it is (R215). -/
def step (s : State) : Host.Outcome State Fault Refusal :=
  match s.inputs with
  | [] => sequencerStep s
  | a :: rest =>
    if s.busy && !a.overtakes then sequencerStep s
    else .next (({ s with inputs := rest } : State).perform a.act)

/-- The host's queue with every action due after the completion of what runs. -/
def afterCompletion (as : List Arrival) : List Arrival := as.map fun a => { a with overtakes := false }

/-- The state in which the core has just been given the word `w` on CMD (R29, R31) and its next step runs it: a legal word
is accepted and no queued host action overtakes it; an illegal word is refused. This stands for the host's write of a
command (log 11). -/
def State.withFetchWord (s : State) (nbits w : Nat) : State :=
  ({ s with seq := .idle, inputs := afterCompletion s.inputs } : State).submit (BitVec.ofNat 32 (w % 2 ^ nbits))

end Sys2Proof.Machine
end

