-- ==== Sys2Proof/Machine/HostProgram.lean ====
section
/-! DEFINITION. Host-side notation: the host programs' lines as host actions (R91), the pseudo-instructions (R92) and the
assembler's spelling of a command (R90). Nothing in the core depends on it. -/
namespace Sys2Proof.Machine

/-- An action the host takes after waiting for the core: it overtakes nothing (R240, R91). -/
def afterWait (act : HostAction) : Arrival := ⟨act, false⟩

/-- `WR sK, v`: N cell writes, digit 0 first (R91). -/
def wr (par : Params) (k v : Nat) : List Arrival :=
  (List.range par.n).map fun j =>
    afterWait (.write (digitAddr par k j) (BitVec.ofNat 64 (v / 2 ^ (j * par.w) % 2 ^ par.w)))

/-- `WR2 sK, v`: a double-width value to slots K and K+1 (R91). -/
def wr2 (par : Params) (k v : Nat) : List Arrival := wr par k (v % par.r) ++ wr par (k + 1) (v / par.r)

/-- A command line: the CMD write of its word (R91). -/
def issue (i : Instr) : List Arrival := [afterWait (.write 0x0004 ((encode i).setWidth 64))]

/-- `RD sK`: N cell reads (R91). -/
def rd (par : Params) (k : Nat) : List Arrival := (List.range par.n).map fun j => afterWait (.read (digitAddr par k j))

/-- `FP_TOMONT sD, sA, sR2` (R92). -/
def fpToMont (sd sa sr2 : SlotIx) : Instr := .fpMul sd sa sr2

/-- `FP_FROMMONT sD, sA, sONE` (R92). -/
def fpFromMont (sd sa sone : SlotIx) : Instr := .fpMul sd sa sone

/-- `MP_MOV sD, sA, sZ` (R92). -/
def mpMov (sd sa sz : SlotIx) : Instr := .mpAdd .single sd sa sz

/-- `PT_MOV sD, sP, sC` (R92). -/
def ptMov (sd sp sc : SlotIx) : Instr := .ptDbl sd sp sc 0

/-- A slot operand as the assembler spells it, `s0` to `s63` (R90). -/
def slotText (s : SlotIx) : String := "s" ++ toString s.val

/-- A line of assembler text (R90). -/
def line (name : String) (ops : List String) : String := name ++ " " ++ String.intercalate ", " ops

/-- The assembler's spelling of a command (R90). -/
def assemblerText : Instr → String
  | .mpAdd .single d a b => line "MP_ADD" [slotText d, slotText a, slotText b]
  | .mpAdd .double d a b => line "MP_ADD.DW" [slotText d, slotText a, slotText b]
  | .mpSub .single d a b => line "MP_SUB" [slotText d, slotText a, slotText b]
  | .mpSub .double d a b => line "MP_SUB.DW" [slotText d, slotText a, slotText b]
  | .mpSubc .twoP d a b => line "MP_SUBC.2P" [slotText d, slotText a, slotText b]
  | .mpSubc .fourP d a b => line "MP_SUBC.4P" [slotText d, slotText a, slotText b]
  | .mpMul d a b => line "MP_MUL" [slotText d, slotText a, slotText b]
  | .fpMul d a b => line "FP_MUL" [slotText d, slotText a, slotText b]
  | .fpSqr d a => line "FP_SQR" [slotText d, slotText a]
  | .fpRdc d a => line "FP_RDC" [slotText d, slotText a]
  | .fpInv d a => line "FP_INV" [slotText d, slotText a]
  | .fp2Mul d a b => line "FP2_MUL" [slotText d, slotText a, slotText b]
  | .ptDbl d q c e => line "PT_DBL" [slotText d, slotText q, slotText c, toString e.val]
  | .iso4Eval d q k => line "ISO4_EVAL" [slotText d, slotText q, slotText k]
  | .iso3Eval d q k => line "ISO3_EVAL" [slotText d, slotText q, slotText k]

end Sys2Proof.Machine
end

