-- ==== Sys2Proof/Safety.lean ====
section
/-! DEFINITION. What claims are stated in terms of: the launch premises (R234), the end of a run (R243), the stopping reading
of the fault record (R206), and the invariant of the machine. -/
namespace Sys2Proof.Safety

open Sys2Proof.Machine

/-- `clean_launch` (R234). -/
def cleanLaunch (s : State) : Prop :=
  s.faults = [] ∧ s.seq = .idle ∧ s.ill = false ∧ s.haz = false ∧ s.ecode = .none

/-- `after_reset` (R234): no digit is written, CF = 0, CMD = 0. -/
def afterReset (s : State) : Prop :=
  cleanLaunch s ∧ (∀ sl ∈ s.slots, ∀ d ∈ sl, d.written = false) ∧ s.cf = false ∧ s.cmd = 0

/-- `after_wipe` (R234): every digit is written and 0, CF = 0. -/
def afterWipe (s : State) : Prop :=
  cleanLaunch s ∧ (∀ sl ∈ s.slots, ∀ d ∈ sl, d = ⟨0, true⟩) ∧ s.cf = false

/-- A run has ended: the host has nothing left to do and the core is idle (R243). -/
def ended (s : State) : Prop := s.inputs = [] ∧ s.seq = .idle

/-- An ended run is final exactly when the fault record is empty (R243). -/
def final (s : State) : Prop := ended s ∧ s.faults = []

/-- The reading of R206 in which a state with a recorded fault takes no further step: `step` while the record is empty, the
first recorded reason as the fault afterwards. The chip itself goes on, and so does `step` (log 2). -/
def strictStep (s : State) : Host.Outcome State Fault Refusal :=
  match s.faults with
  | [] => step s
  | r :: _ => .fault r

/-- A source group as held by the sequencer: one number per slot, each below `R` (R20, R31). -/
def groupWf (par : Params) (width : Nat) (g : List Nat) : Prop := g.length = width ∧ ∀ v ∈ g, v < par.r

/-- What the sequencer holds is right (R29, R31, R63): a running command is the one CMD reads, is well formed, and its
sources are one number per slot and, if the slot file has them all written, what the slot file still holds. -/
def sequencerWf (s : State) : Prop :=
  ∀ i src, s.seq = .running i src →
    decode s.cmd = .ok i ∧ i.wellFormed s.par.nslot = true ∧
    groupWf s.par i.src1.group.width src.rs1 ∧
    groupWf s.par (optionSlots i.src2).length src.rs2 ∧
    (s.unwritten i = none → src = s.sample i)

/-- STATUS and the fault record agree (R201, R202, R203, R206): ECODE is 0 exactly while ILL and HAZ are, and every error
STATUS shows is in the record. -/
def statusWf (s : State) : Prop :=
  (s.ecode = .none ↔ s.ill = false ∧ s.haz = false) ∧
  (s.ill = true → ∃ e, Fault.illegalCommand e ∈ s.faults) ∧
  (s.haz = true → ∃ e, Fault.busyHazard e ∈ s.faults) ∧
  (∀ e, s.ecode = .ill e → Fault.illegalCommand e ∈ s.faults) ∧
  (∀ e, s.ecode = .haz e → Fault.busyHazard e ∈ s.faults)

/-- The invariant of the machine: the slot file is in canonical form, the sequencer holds what it should, STATUS agrees with
the fault record, and the record is a set. -/
structure Inv (s : State) : Prop where
  slotFile : slotFileWf s.par s.slots = true
  sequencer : sequencerWf s
  status : statusWf s
  record : s.faults.Nodup

end Sys2Proof.Safety
end

