-- ==== Sys2Proof/Certificates/Slice0/Obligations.lean ====
section
/-! DEFINITION. The statements about the model, most of them after the spec's numbered rules. The helpers they share stand in
the first part; each obligation is a Prop and none is proved here. -/
namespace Sys2Proof.Claims

open Sys2Proof.Machine

/-- Every value of a list is below a bound (R18). -/
def Below (bound : Nat) (vs : List Nat) : Prop := ∀ v ∈ vs, v < bound

/-- The slot file is in canonical form and the command is legal in it: what holds whenever a command runs. -/
def Ready (s : State) (i : Instr) : Prop :=
  slotFileWf s.par s.slots = true ∧ i.wellFormed s.par.nslot = true

/-- The slots from `base` on hold the listed values, every digit written. -/
def GroupHolds (t : State) (base : Nat) (vs : List Nat) : Prop :=
  ∀ j v, vs[j]? = some v → t.slot (base + j) = v ∧ slotWritten (slotAt t.slots (base + j)) = true

/-- The slots outside a group keep every digit and written bit. -/
def OtherSlotsKept (s t : State) (base width : Nat) : Prop :=
  t.slots.length = s.slots.length ∧ ∀ k, k < base ∨ base + width ≤ k → t.slots[k]? = s.slots[k]?

/-- The frame of a completed command (R30): no slot outside the destination group, no STATUS error bit, not CMD, not the
fault record, not the parameters, and nothing of the host's changes; the core is idle. CF is spoken of separately, and the
hidden temporaries (R32) may change. -/
def CommandFrame (s t : State) (base width : Nat) : Prop :=
  OtherSlotsKept s t base width ∧ t.par = s.par ∧ t.ill = s.ill ∧ t.haz = s.haz ∧ t.ecode = s.ecode ∧ t.cmd = s.cmd ∧
    t.faults = s.faults ∧ t.inputs = s.inputs ∧ t.readData = s.readData ∧ t.seq = .idle

/-- The number of a verdict on a command word: 0 if it is legal (R88). -/
def verdictNumber : Except IllCode Instr → Nat
  | .ok _ => 0
  | .error e => illNumber e

/-- The widths of the groups of RD, RS1 and RS2 by opcode, the DW bit applied; 0 for a field marked "0" (R22, R85). -/
def fieldWidths (opc imm : Nat) : Nat × Nat × Nat :=
  if opc = 0x01 ∨ opc = 0x02 then (1 + imm, 1 + imm, 1 + imm)
  else if opc = 0x03 then (1, 1, 1)
  else if opc = 0x04 then (2, 1, 1)
  else if opc = 0x05 then (1, 1, 1)
  else if opc = 0x06 then (1, 1, 0)
  else if opc = 0x07 then (1, 2, 0)
  else if opc = 0x08 then (1, 1, 0)
  else if opc = 0x09 then (2, 2, 2)
  else if opc = 0x0A then (4, 4, 4)
  else if opc = 0x0B then (4, 4, 6)
  else (4, 4, 4)

/-- The legality function of R88 as the spec writes it, on the bit fields of the word. -/
def legalityNumber (nslot : Nat) (c : Word) : Nat :=
  let opc := (c.extractLsb' 26 6).toNat
  let rd := (c.extractLsb' 20 6).toNat
  let rs1 := (c.extractLsb' 14 6).toNat
  let rs2 := (c.extractLsb' 8 6).toNat
  let imm := (c.extractLsb' 0 8).toNat
  let (wd, w1, w2) := fieldWidths opc imm
  if opc = 0 ∨ 0x0C < opc then 1
  else if (opc = 0x06 ∨ opc = 0x07 ∨ opc = 0x08) ∧ rs2 ≠ 0 then 2
  else if 0x04 ≤ opc ∧ opc ≠ 0x0A ∧ imm ≠ 0 then 2
  else if opc ≤ 0x03 ∧ 1 < imm then 3
  else if nslot < rd + wd ∨ nslot < rs1 + w1 ∨ (w2 ≠ 0 ∧ nslot < rs2 + w2) then 4
  else 0

/-- The table of R205: what a command requires of its sources. -/
def Requires (par : Params) (i : Instr) (src : Sources) : Prop :=
  if i.opc ≤ 0x04 then True
  else if i.opc = 0x07 then component src.rs1 0 + component src.rs1 1 * par.r < par.p * par.r
  else Below (2 * par.p) src.rs1 ∧ Below (2 * par.p) src.rs2

/-- The residue a stored value represents: `a · R^(−1)` modulo `p` (R12). -/
def residue (par : Params) (v : Nat) : ZMod par.p := (v : ZMod par.p) * (par.r : ZMod par.p)⁻¹

/-- The element of F_p^2 an FP2 element represents, as the pair of its residues (R12, R14). -/
def element (par : Params) (a : Fp2) : ZMod par.p × ZMod par.p := (residue par a.a0, residue par a.a1)

/-- Multiplication of F_p^2 with `i^2 = −1` on pairs (R14). -/
def times {par : Params} (u v : ZMod par.p × ZMod par.p) : ZMod par.p × ZMod par.p :=
  (u.1 * v.1 - u.2 * v.2, u.1 * v.2 + u.2 * v.1)

/-- Squaring of F_p^2 on pairs. -/
def square {par : Params} (u : ZMod par.p × ZMod par.p) : ZMod par.p × ZMod par.p := times u u

/-- Both components of an FP2 element are below `2p`, the working range (R18). -/
def Fp2Below (par : Params) (a : Fp2) : Prop := a.a0 < 2 * par.p ∧ a.a1 < 2 * par.p

/-- A point's components are all below `2p`. -/
def PointBelow (par : Params) (q : Point) : Prop := Fp2Below par q.x ∧ Fp2Below par q.z

/-- `k` steps of the machine, stopping where it stops. -/
def run : Nat → State → Host.Outcome State Fault Refusal
  | 0, s => .next s
  | k + 1, s =>
    match step s with
    | .next t => run k t
    | .fault r => .fault r
    | .refused r => .refused r

/-- A host action that reaches the core while a command runs and is not the reset input. -/
def whileRunning (a : Arrival) : Prop := a.overtakes = true ∧ a.act ≠ .reset

/-- Nothing, or an action that waits for the completion. -/
def waits : List Arrival → Prop
  | [] => True
  | a :: _ => a.overtakes = false

end Sys2Proof.Claims

open Sys2Proof Sys2Proof.Machine Sys2Proof.Safety Sys2Proof.Claims

/-! ### Encoding and legality -/

/-- Decoding the word of any command gives it back, and the word is legal exactly when the command is well formed (R80, R84,
R85, R88). -/
def Obligations.DecodeEncodeRoundTrip : Prop :=
  ∀ i : Instr, decode (encode i) = .ok i ∧
    ∀ nslot, legality nslot (encode i) = if i.wellFormed nslot then .ok i else .error .illRange

/-- A word that decodes is the word of the command it decodes to: every legal word's meaning is unique (R87, D12). -/
def Obligations.EncodeDecodeRoundTrip : Prop :=
  ∀ (c : Word) (i : Instr), decode c = .ok i → encode i = c

/-- The model's verdict on a word is the legality function of R88. -/
def Obligations.LegalityFollowsTheSpecFunction : Prop :=
  ∀ (nslot : Nat) (c : Word), verdictNumber (legality nslot c) = legalityNumber nslot c

/-- R86: a reserved opcode is refused with ECODE 1 and changes nothing but STATUS.ILL and STATUS.ECODE (and the model's
record); every legal word has an opcode of the map. -/
def Obligations.ReservedOpcodesAreRefused : Prop :=
  (∀ (s : State) (v : BusWord), s.seq = .idle →
    (opcOf (v.setWidth 32) = 0x00 ∨ 0x0D ≤ opcOf (v.setWidth 32)) →
    s.perform (.write 0x0004 v) =
      { s with ill := true, ecode := .ill .illOpc, faults := addFault (.illegalCommand .illOpc) s.faults }) ∧
  (∀ (nslot : Nat) (c : Word) (i : Instr), legality nslot c = .ok i → 0x01 ≤ opcOf c ∧ opcOf c ≤ 0x0C)

/-- Words of the spec's encodings, one or more per family, decode to the commands they stand for. -/
def Obligations.SpecWordsDecode : Prop :=
  decode 0x04810601 = .ok (.mpAdd .double 8 4 6) ∧ decode 0x08200100 = .ok (.mpSub .single 2 0 1) ∧
    decode 0x14400200 = .ok (.fpMul 4 0 2) ∧ decode 0x1C0F8000 = .ok (.fpRdc 0 62) ∧
    decode 0x20510000 = .ok (.fpInv 5 4) ∧ decode 0x24A10600 = .ok (.fp2Mul 10 4 6) ∧
    decode 0x28801401 = .ok (.ptDbl 8 0 20 1) ∧ decode 0x2D001800 = .ok (.iso4Eval 16 0 24) ∧
    decode 0x0CA00102 = .error .illImm ∧ decode 0x18A10100 = .error .illZero ∧ decode 0 = .error .illOpc

/-! ### Steps, acceptance and completion -/

/-- A step runs the decoded command: with a command in progress and no host action that overtakes it, CMD decodes to the
command and the step is `exec` of it; and a legal word given to the core runs in the very next step. -/
def Obligations.StepRunsTheDecodedCommand : Prop :=
  (∀ (s : State) (i : Instr) (src : Sources), Inv s → s.seq = .running i src → waits s.inputs →
    decode s.cmd = .ok i ∧ step s = exec i s) ∧
  (∀ (s : State) (w : Nat) (i : Instr), legality s.par.nslot (BitVec.ofNat 32 w) = .ok i →
    step (s.withFetchWord 32 w) = exec i (s.withFetchWord 32 w))

/-- A step otherwise performs the host's next action, at any time if it overtakes what runs, and it is the sequencer that
moves when the host has nothing to do (R50, R63, R204(c), R215). -/
def Obligations.StepPerformsTheHostAction : Prop :=
  (∀ (s : State) (a : Arrival) (rest : List Arrival), s.inputs = a :: rest → (s.seq = .idle ∨ a.overtakes = true) →
    step s = .next (({ s with inputs := rest } : State).perform a.act)) ∧
  (∀ s : State, s.inputs = [] → s.seq = .idle → step s = .next s)

/-- Acceptance (R29, R30, R31): a legal word written to CMD while idle is stored, the core is busy with it, and its sources
are the slots of its source groups as they stand (if they are all written); no slot, not CF and no STATUS error bit
changes. The fault record gains the command's model fault, if it has one (AcceptanceRecordsModelFaults says which), and the
model's count of free values moves only if a source digit is unwritten (logs 2, 4, 6). -/
def Obligations.AcceptanceSamplesTheSources : Prop :=
  ∀ (s : State) (v : BusWord) (o : Bool) (rest : List Arrival) (i : Instr),
    s.seq = .idle → s.inputs = ⟨.write 0x0004 v, o⟩ :: rest → legality s.par.nslot (v.setWidth 32) = .ok i →
    ∃ t src, step s = .next t ∧ t.cmd = v.setWidth 32 ∧ t.seq = .running i src ∧ t.busy = true ∧
      t.slots = s.slots ∧ t.cf = s.cf ∧ t.ill = s.ill ∧ t.haz = s.haz ∧ t.ecode = s.ecode ∧ t.par = s.par ∧
      t.temps = s.temps ∧ t.inputs = rest ∧ t.readData = s.readData ∧
      t.faults = recordFault (s.acceptFault i) s.faults ∧
      ((∀ k ∈ i.src1.slots ++ optionSlots i.src2, slotWritten (slotAt s.slots k) = true) →
        src = ⟨i.src1.slots.map s.slot, (optionSlots i.src2).map s.slot⟩ ∧ t.draws = s.draws)

/-- R204(b), R205: at acceptance the first unwritten source digit is recorded; if there is none, the first source component
out of the command's range; if there is none either, nothing. -/
def Obligations.AcceptanceRecordsModelFaults : Prop :=
  ∀ (s : State) (c : Word) (i : Instr),
    (∀ pre k post j, sourceSlots i = pre ++ k :: post → (∀ x ∈ pre, slotWritten (slotAt s.slots x) = true) →
      j < (slotAt s.slots k).length → (s.digit k j).written = false → (∀ j' < j, (s.digit k j').written = true) →
      (s.accept c i).faults = addFault (.unwrittenSource k j) s.faults) ∧
    ((∀ x ∈ sourceSlots i, slotWritten (slotAt s.slots x) = true) →
      (Requires s.par i (s.sample i) → (s.accept c i).faults = s.faults) ∧
      (¬ Requires s.par i (s.sample i) → ∃ f k, (s.accept c i).faults =
          addFault (.preconditionViolation i.opc f k) s.faults ∧
        (i.opc ≠ 0x07 → match f with
          | .rs1 => 2 * s.par.p ≤ component (s.sample i).rs1 k ∧ Below (2 * s.par.p) ((s.sample i).rs1.take k)
          | .rs2 => 2 * s.par.p ≤ component (s.sample i).rs2 k ∧ Below (2 * s.par.p) ((s.sample i).rs2.take k) ∧
              Below (2 * s.par.p) (s.sample i).rs1)))

/-- A command is one indivisible pure function of the slots as they stand at acceptance (R30, R31, R203): from an idle core
whose host writes a legal word, with all sources written and in range, whatever else the host does while the command runs
(reads, dropped writes, STATUS writes), the slots and CF after the completion are those that `exec` gives on the idle state
at once. Which actions come while the command runs is said by the queue's marks (log 7), and `exec` on an idle state samples
the slots as they stand (log 10); both are the model's conventions. -/
def Obligations.CommandIsAtomicDespiteTheHost : Prop :=
  ∀ (s u : State) (v : BusWord) (o : Bool) (mid rest : List Arrival) (i : Instr),
    Inv s → s.seq = .idle → s.inputs = ⟨.write 0x0004 v, o⟩ :: (mid ++ rest) →
    legality s.par.nslot (v.setWidth 32) = .ok i → s.acceptFault i = none →
    (∀ a ∈ mid, whileRunning a) → waits rest → exec i s = .next u →
    ∃ t, run (mid.length + 2) s = .next t ∧ t.slots = u.slots ∧ t.cf = u.cf ∧ t.cmd = v.setWidth 32 ∧
      t.seq = .idle ∧ t.inputs = rest ∧ t.temps = u.temps

/-- Every step keeps the invariant of the machine (Safety.Inv): the slot file stays in canonical form, the sequencer holds a
legal command with the sources the slot file still has, STATUS and the fault record agree, the record is a set. -/
def Obligations.StepKeepsTheMachineInvariant : Prop :=
  ∀ s t : State, Inv s → step s = .next t → Inv t

/-- The invariant holds after reset, for every parameter set. -/
def Obligations.ResetMeetsTheMachineInvariant : Prop :=
  (∀ par : Params, Inv (State.resetOf par)) ∧ Inv State.reset

/-- No step removes a reason from the fault record: not a STATUS write, not a wipe, not reset (R206). The reading of R206 in
which a recorded fault stops the model is `strictStep` (log 2): it is `step` while the record is empty and takes no step
afterwards. -/
def Obligations.FaultRecordOnlyGrows : Prop :=
  (∀ (s t : State) (r : Fault), step s = .next t → r ∈ s.faults → r ∈ t.faults) ∧
  (∀ s : State, s.faults = [] → strictStep s = step s) ∧
  (∀ s t : State, s.faults ≠ [] → strictStep s ≠ .next t)

/-- Every command and wipe completes (R208, R209): every step answers a next state of the same instance, and a busy core is
idle again after at most one step more than the host has actions left (R241, U16). That a state with a recorded fault steps
on as well is the model's choice (log 2), against the reading of R206 in which it does not. -/
def Obligations.BusyPeriodEnds : Prop :=
  (∀ s : State, ∃ t, step s = .next t ∧ t.par = s.par) ∧
  (∀ s : State, s.busy = true → ∃ k t, k ≤ s.inputs.length + 1 ∧ run k s = .next t ∧ t.busy = false)

/-- Both orders of a transaction and a completion are possible (R204(c), U15): a STATUS read that overtakes the running
command reads BUSY = 1, one that does not reads BUSY = 0. -/
def Obligations.BothOrdersOfReadAndCompletion : Prop :=
  ∀ (s : State) (rest : List Arrival), s.busy = true →
    (s.inputs = ⟨.read 0x0002, true⟩ :: rest → ∃ t, step s = .next t ∧ t.readData.getLsbD 0 = true) ∧
    (s.inputs = ⟨.read 0x0002, false⟩ :: rest → ∃ t, run 2 s = .next t ∧ t.readData.getLsbD 0 = false)

/-- R240: the first STATUS read after a CMD write shows BUSY = 1 for an accepted command, or BUSY = 0 with ILL = 1 and the
cause code for a refused one. -/
def Obligations.FirstStatusReadAfterACommand : Prop :=
  ∀ (s : State) (v : BusWord) (o : Bool) (rest : List Arrival), s.seq = .idle →
    s.inputs = ⟨.write 0x0004 v, o⟩ :: ⟨.read 0x0002, true⟩ :: rest →
    ∃ t, run 2 s = .next t ∧
      (∀ i, legality s.par.nslot (v.setWidth 32) = .ok i → t.readData.getLsbD 0 = true) ∧
      (∀ e, legality s.par.nslot (v.setWidth 32) = .error e → t.readData.getLsbD 0 = false ∧
        t.readData.getLsbD 1 = true ∧ t.readData.toNat / 16 % 16 = illNumber e)

/-- The hidden temporaries are not observable (R32): two states that differ only in them step to states that differ only in
them. -/
def Obligations.HiddenTemporariesAreUnobservable : Prop :=
  ∀ (s : State) (h : List Nat), ∃ t h', step s = .next t ∧ step { s with temps := h } = .next { t with temps := h' }

/-- Which slot cells a command writes depends on its word only, never on slot contents or CF (R19, R30, R35): after any
command exactly the digits of the destination group have become written, and every digit outside that group keeps its value
and its written bit. For sources out of range this rests on R207 as log 5 models it. -/
def Obligations.WrittenCellsDependOnTheCommandOnly : Prop :=
  ∀ (s : State) (i : Instr), Ready s i → ∃ t, exec i s = .next t ∧ t.slots.length = s.slots.length ∧
    ∀ k j, k < s.par.nslot → j < s.par.n →
      (i.dst.base.val ≤ k ∧ k < i.dst.base.val + i.dst.group.width → (t.digit k j).written = true) ∧
      (¬ (i.dst.base.val ≤ k ∧ k < i.dst.base.val + i.dst.group.width) → t.digit k j = s.digit k j)

/-- Once the run has ended with an empty fault record, STATUS shows no error (R206, R243). -/
def Obligations.FinalRunShowsNoError : Prop :=
  ∀ s : State, Inv s → final s → s.statusWord = if s.cf then 0x100 else 0

/-! ### Errors -/

/-- R202: an illegal word on CMD while idle sets ILL and ECODE and is recorded; nothing else changes. -/
def Obligations.IllegalWordIsRefused : Prop :=
  ∀ (s : State) (v : BusWord) (o : Bool) (rest : List Arrival) (e : IllCode), s.seq = .idle →
    s.inputs = ⟨.write 0x0004 v, o⟩ :: rest → legality s.par.nslot (v.setWidth 32) = .error e →
    step s = .next { s with
      inputs := rest, ill := true, ecode := .ill e, faults := addFault (.illegalCommand e) s.faults }

/-- R203: while busy a write to CMD, to a slot cell, or to CTRL with bit 0 = 1 is dropped, sets HAZ and ECODE 5, 6 or 7 and
is recorded, and nothing else changes (the command or wipe in progress is not affected); reads, STATUS writes, CTRL writes
with bit 0 = 0 and writes to reserved cells are no hazard. -/
def Obligations.BusyWritesAreDropped : Prop :=
  ∀ (s : State) (v : BusWord), s.busy = true →
    s.perform (.write 0x0004 v) =
      { s with haz := true, ecode := .haz .hazCmd, faults := addFault (.busyHazard .hazCmd) s.faults } ∧
    (∀ a : CellAddr, 0x1000 ≤ a.toNat → a.toNat < 0x1000 + s.par.nslot * s.par.n → s.perform (.write a v) =
      { s with haz := true, ecode := .haz .hazSlot, faults := addFault (.busyHazard .hazSlot) s.faults }) ∧
    (v.getLsbD 0 = true → s.perform (.write 0x0003 v) =
      { s with haz := true, ecode := .haz .hazWipe, faults := addFault (.busyHazard .hazWipe) s.faults }) ∧
    (v.getLsbD 0 = false → s.perform (.write 0x0003 v) = s) ∧
    (∀ a : CellAddr, (s.perform (.read a)).haz = s.haz ∧ (s.perform (.read a)).ecode = s.ecode ∧
      (s.perform (.read a)).faults = s.faults) ∧
    ((s.perform (.write 0x0002 v)).haz = true → s.haz = true) ∧ (s.perform (.write 0x0002 v)).faults = s.faults ∧
    (∀ a : CellAddr, 5 ≤ a.toNat → (a.toNat < 0x1000 ∨ 0x1000 + s.par.nslot * s.par.n ≤ a.toNat) →
      s.perform (.write a v) = s)

/-- R207: a command whose sources are out of its range still completes; every destination slot receives an unspecified
written value (a free value, below `R`), CF is unchanged and no STATUS bit is set. -/
def Obligations.OutOfRangeCommandCompletes : Prop :=
  ∀ (s : State) (i : Instr), Ready s i → ¬ Requires s.par i (s.sourcesOf i) →
    ∃ t vs, exec i s = .next t ∧ vs.length = i.dst.group.width ∧ Below s.par.r vs ∧
      GroupHolds t i.dst.base vs ∧ t.cf = s.cf ∧ CommandFrame s t i.dst.base i.dst.group.width

/-! ### Registers and the host port -/

/-- R24, R52, R53: the cell map, every address. -/
def Obligations.CellMapIsTheSpecs : Prop :=
  ∀ par : Params, par.nslot * par.n ≤ 0xF000 →
    cellOf par 0x0000 = .id ∧ cellOf par 0x0001 = .param ∧ cellOf par 0x0002 = .status ∧ cellOf par 0x0003 = .ctrl ∧
    cellOf par 0x0004 = .cmd ∧
    (∀ k j, k < par.nslot → j < par.n → cellOf par (BitVec.ofNat 16 (0x1000 + k * par.n + j)) = .digit k j) ∧
    (∀ a : CellAddr, 5 ≤ a.toNat → (a.toNat < 0x1000 ∨ 0x1000 + par.nslot * par.n ≤ a.toNat) → cellOf par a = .reserved)

/-- R51, R55: the bus has `HB = max(32, W)` bits, no cell is wider, a write depends on the bits its cell has only (so not on
the bits above HB), and a read returns a value of its cell's width, zero-extended. -/
def Obligations.HostBusCarriesEveryCell : Prop :=
  ∀ (s : State) (a : CellAddr), ∀ width, width = (cellOf s.par a).width s.par →
    s.par.busWidth = (if s.par.w ≤ 32 then 32 else s.par.w) ∧ width ≤ s.par.busWidth ∧
    (∀ v v' : BusWord, v.toNat % 2 ^ width = v'.toNat % 2 ^ width →
      s.perform (.write a v) = s.perform (.write a v')) ∧
    (∀ v v' : BusWord, v.toNat % 2 ^ s.par.busWidth = v'.toNat % 2 ^ s.par.busWidth →
      s.perform (.write a v) = s.perform (.write a v')) ∧
    (slotFileWf s.par s.slots = true → (s.perform (.read a)).readData.toNat < 2 ^ width)

/-- R54: a reserved cell reads as 0 and ignores writes; an access to it changes nothing else. -/
def Obligations.ReservedCellsAreInert : Prop :=
  ∀ (s : State) (a : CellAddr) (v : BusWord), 5 ≤ a.toNat →
    (a.toNat < 0x1000 ∨ 0x1000 + s.par.nslot * s.par.n ≤ a.toNat) →
    s.perform (.read a) = { s with readData := 0 } ∧ s.perform (.write a v) = s

/-- R25, R26: ID reads CORE_ID, PARAM reads W, N, NSLOT and the version 1; writes to them are ignored; TOY's PARAM is
`0x01400208`. -/
def Obligations.IdAndParamAreHardwired : Prop :=
  (∀ (s : State) (v : BusWord), s.par.admitted →
    s.perform (.read 0x0000) = { s with readData := s.par.coreId.setWidth 64 } ∧
    s.perform (.write 0x0000 v) = s ∧ s.perform (.write 0x0001 v) = s ∧
    ∃ d : BusWord, s.perform (.read 0x0001) = { s with readData := d } ∧
      d.toNat % 256 = s.par.w ∧ d.toNat / 256 % 256 = s.par.n ∧ d.toNat / 65536 % 256 = s.par.nslot ∧
      d.toNat / 16777216 = 1) ∧
  (State.reset.perform (.read 0x0001)).readData = 0x01400208

/-- R27: STATUS reads BUSY, ILL, HAZ, ECODE and CF in their bits and 0 elsewhere, 0 after reset; a write clears ILL and HAZ
by 1 bits and ECODE if both are then 0, at any time, and never sets HAZ or anything else. -/
def Obligations.StatusRegister : Prop :=
  (∀ s : State, s.perform (.read 0x0002) = { s with readData := s.statusWord.setWidth 64 } ∧
    (s.statusWord.getLsbD 0 = true ↔ s.seq ≠ .idle) ∧ s.statusWord.getLsbD 1 = s.ill ∧ s.statusWord.getLsbD 2 = s.haz ∧
    s.statusWord.getLsbD 3 = false ∧ s.statusWord.toNat / 16 % 16 = ecodeNumber s.ecode ∧
    s.statusWord.getLsbD 8 = s.cf ∧ s.statusWord.toNat < 512) ∧
  (∀ par : Params, (State.resetOf par).statusWord = 0) ∧
  (∀ (s : State) (v : BusWord), s.perform (.write 0x0002 v) = { s with
    ill := if v.getLsbD 1 = true then false else s.ill
    haz := if v.getLsbD 2 = true then false else s.haz
    ecode := if (s.perform (.write 0x0002 v)).ill = false ∧ (s.perform (.write 0x0002 v)).haz = false then .none
      else s.ecode })

/-- R28: CTRL reads 0; a write with bit 0 = 1 starts a wipe while idle and is the busy hazard 7 while busy; a write with bit
0 = 0 does nothing. -/
def Obligations.CtrlRegister : Prop :=
  ∀ (s : State) (v : BusWord), s.perform (.read 0x0003) = { s with readData := 0 } ∧
    (v.getLsbD 0 = false → s.perform (.write 0x0003 v) = s) ∧
    (v.getLsbD 0 = true → s.seq = .idle → s.perform (.write 0x0003 v) = { s with seq := .wiping }) ∧
    (v.getLsbD 0 = true → s.seq ≠ .idle → s.perform (.write 0x0003 v) =
      { s with haz := true, ecode := .haz .hazWipe, faults := addFault (.busyHazard .hazWipe) s.faults })

/-- R29: CMD reads the last accepted word, 0 after reset; a legal word written while idle is stored, an illegal one is not;
while busy the write is dropped with ECODE 5. -/
def Obligations.CmdRegister : Prop :=
  (∀ par : Params, (State.resetOf par).cmd = 0) ∧
  ∀ (s : State) (v : BusWord), s.perform (.read 0x0004) = { s with readData := s.cmd.setWidth 64 } ∧
    (s.seq = .idle → ∀ i, legality s.par.nslot (v.setWidth 32) = .ok i →
      (s.perform (.write 0x0004 v)).cmd = v.setWidth 32 ∧ (s.perform (.write 0x0004 v)).busy = true) ∧
    (s.seq = .idle → ∀ e, legality s.par.nslot (v.setWidth 32) = .error e →
      (s.perform (.write 0x0004 v)).cmd = s.cmd ∧ (s.perform (.write 0x0004 v)).seq = .idle) ∧
    (s.seq ≠ .idle → s.perform (.write 0x0004 v) =
      { s with haz := true, ecode := .haz .hazCmd, faults := addFault (.busyHazard .hazCmd) s.faults })

/-- R57: while idle a slot-cell write sets the digit to the low W bits, written, and nothing else changes; a read then
returns it; writing again changes nothing; while busy the write is dropped with ECODE 6. -/
def Obligations.SlotCellWrite : Prop :=
  ∀ (s : State) (k j : Nat) (v : BusWord), s.par.nslot * s.par.n ≤ 0xF000 → slotFileWf s.par s.slots = true →
    k < s.par.nslot → j < s.par.n → ∀ t, t = s.perform (.write (digitAddr s.par k j) v) →
    (s.seq = .idle → t.digit k j = ⟨v.toNat % 2 ^ s.par.w, true⟩ ∧
      (∀ k' j', k' ≠ k ∨ j' ≠ j → t.digit k' j' = s.digit k' j') ∧ t = { s with slots := t.slots } ∧
      (t.perform (.read (digitAddr s.par k j))).readData.toNat = v.toNat % 2 ^ s.par.w ∧
      t.perform (.write (digitAddr s.par k j) v) = t) ∧
    (s.seq ≠ .idle → t =
      { s with haz := true, ecode := .haz .hazSlot, faults := addFault (.busyHazard .hazSlot) s.faults })

/-- R56: a slot-cell read while idle returns a written digit; an unwritten one is recorded and reads as an unspecified W-bit
value; while busy the read returns an unspecified W-bit value; no read of any cell has another side effect. -/
def Obligations.SlotCellRead : Prop :=
  (∀ (s : State) (k j : Nat), s.par.nslot * s.par.n ≤ 0xF000 → s.par.w ≤ 64 → slotFileWf s.par s.slots = true →
    k < s.par.nslot → j < s.par.n → ∀ t, t = s.perform (.read (digitAddr s.par k j)) →
    (s.seq = .idle → (s.digit k j).written = true →
      t.readData.toNat = (s.digit k j).val ∧ t = { s with readData := t.readData }) ∧
    (s.seq = .idle → (s.digit k j).written = false →
      t.readData.toNat < 2 ^ s.par.w ∧ t.faults = addFault (.unwrittenRead k j) s.faults) ∧
    (s.seq ≠ .idle → t.readData.toNat < 2 ^ s.par.w ∧ t.faults = s.faults)) ∧
  (∀ (s : State) (a : CellAddr), s.perform (.read a) = { s with
    readData := (s.perform (.read a)).readData
    draws := (s.perform (.read a)).draws
    faults := (s.perform (.read a)).faults })

/-- R21: the value of a slot is the sum of its digits at their places. -/
def Obligations.SlotValueIsTheDigitSum : Prop :=
  ∀ (s : State) (k : Nat), slotFileWf s.par s.slots = true → k < s.par.nslot →
    s.slot k = ∑ j ∈ Finset.range s.par.n, (s.digit k j).val * 2 ^ (j * s.par.w)

/-- R36, R230: after reset, and after the reset input at any time, every digit is unwritten, CF, STATUS and CMD are 0, ID and
PARAM read their constants and CTRL 0, the sequencer is idle with nothing pending; the reset input keeps the fault record. -/
def Obligations.ResetValues : Prop :=
  ∀ (s t : State), t = s.perform .reset ∨ t = State.resetOf s.par →
    (∀ k j, (t.digit k j).written = false) ∧ t.cf = false ∧ t.statusWord = 0 ∧ t.cmd = 0 ∧ t.seq = .idle ∧
    t.par = s.par ∧ t.slots.length = s.par.nslot ∧
    (t.perform (.read 0x0000)).readData = s.par.coreId.setWidth 64 ∧
    (t.perform (.read 0x0001)).readData = (paramWord s.par).setWidth 64 ∧
    (t.perform (.read 0x0003)).readData = 0 ∧ (s.perform .reset).faults = s.faults ∧ (State.resetOf s.par).faults = []

/-- R232: a wipe is a busy period after which every digit of every slot is 0 and written, CF is 0 and the hidden temporaries
are 0; STATUS.ILL, HAZ, ECODE and CMD are not changed. -/
def Obligations.WipeZeroesTheSlotFile : Prop :=
  ∀ (s : State) (v : BusWord) (o : Bool) (rest : List Arrival), slotFileWf s.par s.slots = true → s.seq = .idle →
    v.getLsbD 0 = true → s.inputs = ⟨.write 0x0003 v, o⟩ :: rest → waits rest →
    ∃ m t, step s = .next m ∧ m = { s with inputs := rest, seq := .wiping } ∧ m.busy = true ∧ step m = .next t ∧
      (∀ k j, k < s.par.nslot → j < s.par.n → t.digit k j = ⟨0, true⟩) ∧ (∀ k < s.par.nslot, t.slot k = 0) ∧
      t.cf = false ∧ (∀ x ∈ t.temps, x = 0) ∧ t = { m with
        slots := t.slots, cf := false, temps := t.temps, seq := .idle }

/-! ### Results of the commands: each completes, with the value of its rule, and changes nothing else -/

/-- MP_ADD (R100): the sum modulo `2^(width·N·W)`, CF the carry out of the top digit, both widths. -/
def Obligations.MpAddResultAndCarry : Prop :=
  (∀ (s : State) (rd rs1 rs2 : SlotIx) (a b : Nat), Ready s (.mpAdd .single rd rs1 rs2) → a < s.par.r → b < s.par.r →
    s.sourcesOf (.mpAdd .single rd rs1 rs2) = ⟨[a], [b]⟩ →
    ∃ t, exec (.mpAdd .single rd rs1 rs2) s = .next t ∧ GroupHolds t rd [(a + b) % s.par.r] ∧
      (t.cf = true ↔ s.par.r ≤ a + b) ∧ CommandFrame s t rd 1 ∧ t.draws = s.draws) ∧
  (∀ (s : State) (rd rs1 rs2 : SlotIx) (a0 a1 b0 b1 a b m : Nat), Ready s (.mpAdd .double rd rs1 rs2) →
    a0 < s.par.r → a1 < s.par.r → b0 < s.par.r → b1 < s.par.r →
    s.sourcesOf (.mpAdd .double rd rs1 rs2) = ⟨[a0, a1], [b0, b1]⟩ →
    a = a0 + a1 * s.par.r → b = b0 + b1 * s.par.r → m = s.par.r * s.par.r →
    ∃ t, exec (.mpAdd .double rd rs1 rs2) s = .next t ∧
      GroupHolds t rd [(a + b) % m % s.par.r, (a + b) % m / s.par.r] ∧
      (t.cf = true ↔ m ≤ a + b) ∧ CommandFrame s t rd 2 ∧ t.draws = s.draws)

/-- MP_SUB (R101): the difference modulo `2^(width·N·W)`, CF the borrow (1 exactly when `a < b`), both widths. -/
def Obligations.MpSubResultAndBorrow : Prop :=
  (∀ (s : State) (rd rs1 rs2 : SlotIx) (a b d : Nat), Ready s (.mpSub .single rd rs1 rs2) → a < s.par.r → b < s.par.r →
    s.sourcesOf (.mpSub .single rd rs1 rs2) = ⟨[a], [b]⟩ → (d : Int) = ((a : Int) - b) % (s.par.r : Int) →
    ∃ t, exec (.mpSub .single rd rs1 rs2) s = .next t ∧ GroupHolds t rd [d] ∧
      (t.cf = true ↔ a < b) ∧ CommandFrame s t rd 1 ∧ t.draws = s.draws) ∧
  (∀ (s : State) (rd rs1 rs2 : SlotIx) (a0 a1 b0 b1 a b m d : Nat), Ready s (.mpSub .double rd rs1 rs2) →
    a0 < s.par.r → a1 < s.par.r → b0 < s.par.r → b1 < s.par.r →
    s.sourcesOf (.mpSub .double rd rs1 rs2) = ⟨[a0, a1], [b0, b1]⟩ →
    a = a0 + a1 * s.par.r → b = b0 + b1 * s.par.r → m = s.par.r * s.par.r →
    (d : Int) = ((a : Int) - b) % (m : Int) →
    ∃ t, exec (.mpSub .double rd rs1 rs2) s = .next t ∧ GroupHolds t rd [d % s.par.r, d / s.par.r] ∧
      (t.cf = true ↔ a < b) ∧ CommandFrame s t rd 2 ∧ t.draws = s.draws)

/-- MP_SUBC (R102): `(a − b + K) mod R` with `K = 2p` or `4p`, for all values; CF is unchanged. -/
def Obligations.MpSubcResult : Prop :=
  ∀ (s : State) (sel : Correction) (rd rs1 rs2 : SlotIx) (a b k d : Nat), Ready s (.mpSubc sel rd rs1 rs2) →
    a < s.par.r → b < s.par.r → s.sourcesOf (.mpSubc sel rd rs1 rs2) = ⟨[a], [b]⟩ →
    (k = if sel = .twoP then 2 * s.par.p else 4 * s.par.p) →
    (d : Int) = ((a : Int) - b + k) % (s.par.r : Int) →
    ∃ t, exec (.mpSubc sel rd rs1 rs2) s = .next t ∧ GroupHolds t rd [d] ∧ t.cf = s.cf ∧ CommandFrame s t rd 1 ∧
      t.draws = s.draws

/-- MP_MUL (R103): the exact double-width product, low half first; CF is unchanged. -/
def Obligations.MpMulResult : Prop :=
  ∀ (s : State) (rd rs1 rs2 : SlotIx) (a b : Nat), Ready s (.mpMul rd rs1 rs2) → a < s.par.r → b < s.par.r →
    s.sourcesOf (.mpMul rd rs1 rs2) = ⟨[a], [b]⟩ →
    ∃ t lo hi, exec (.mpMul rd rs1 rs2) s = .next t ∧ GroupHolds t rd [lo, hi] ∧ lo + hi * s.par.r = a * b ∧
      t.cf = s.cf ∧ CommandFrame s t rd 2 ∧ t.draws = s.draws

/-- FP_MUL (R127): `REDC(a·b)`, below `2p`; CF is unchanged. -/
def Obligations.FpMulResult : Prop :=
  ∀ (s : State) (rd rs1 rs2 : SlotIx) (a b : Nat), s.par.admitted → Ready s (.fpMul rd rs1 rs2) →
    a < 2 * s.par.p → b < 2 * s.par.p → s.sourcesOf (.fpMul rd rs1 rs2) = ⟨[a], [b]⟩ →
    ∃ t, exec (.fpMul rd rs1 rs2) s = .next t ∧ GroupHolds t rd [redc s.par (a * b)] ∧
      redc s.par (a * b) < 2 * s.par.p ∧ t.cf = s.cf ∧ CommandFrame s t rd 1 ∧ t.draws = s.draws

/-- FP_SQR (R128): `REDC(a·a)`, below `2p`; CF is unchanged. -/
def Obligations.FpSqrResult : Prop :=
  ∀ (s : State) (rd rs1 : SlotIx) (a : Nat), s.par.admitted → Ready s (.fpSqr rd rs1) →
    a < 2 * s.par.p → s.sourcesOf (.fpSqr rd rs1) = ⟨[a], []⟩ →
    ∃ t, exec (.fpSqr rd rs1) s = .next t ∧ GroupHolds t rd [redc s.par (a * a)] ∧
      redc s.par (a * a) < 2 * s.par.p ∧ t.cf = s.cf ∧ CommandFrame s t rd 1 ∧ t.draws = s.draws

/-- FP_RDC (R129): `REDC(T)` of the double-width source `T < p·R`, below `2p`; CF is unchanged. -/
def Obligations.FpRdcResult : Prop :=
  ∀ (s : State) (rd rs1 : SlotIx) (lo hi : Nat), s.par.admitted → Ready s (.fpRdc rd rs1) →
    lo + hi * s.par.r < s.par.p * s.par.r → s.sourcesOf (.fpRdc rd rs1) = ⟨[lo, hi], []⟩ →
    ∃ t, exec (.fpRdc rd rs1) s = .next t ∧ GroupHolds t rd [redc s.par (lo + hi * s.par.r)] ∧
      redc s.par (lo + hi * s.par.r) < 2 * s.par.p ∧ t.cf = s.cf ∧ CommandFrame s t rd 1 ∧ t.draws = s.draws

/-- FP_INV (R132): temporary 0 after the chain run from all temporaries `a`, below `2p`; CF is unchanged; the chain's
temporaries stay behind as hidden state. -/
def Obligations.FpInvResult : Prop :=
  ∀ (s : State) (rd rs1 : SlotIx) (a : Nat), s.par.admitted → Ready s (.fpInv rd rs1) →
    a < 2 * s.par.p → s.sourcesOf (.fpInv rd rs1) = ⟨[a], []⟩ →
    ∃ t, exec (.fpInv rd rs1) s = .next t ∧
      t.temps = s.par.chain.foldl (chainStep s.par) (List.replicate s.par.temps a) ∧
      GroupHolds t rd [t.temps.getD 0 0] ∧ Below (2 * s.par.p) t.temps ∧ t.cf = s.cf ∧ CommandFrame s t rd 1 ∧
      t.draws = s.draws

/-- FP2_MUL (R155): both components of `FP2MUL`, below `2p`; CF is unchanged. -/
def Obligations.Fp2MulResult : Prop :=
  ∀ (s : State) (rd rs1 rs2 : SlotIx) (a b : Fp2), s.par.admitted → Ready s (.fp2Mul rd rs1 rs2) →
    Fp2Below s.par a → Fp2Below s.par b → s.sourcesOf (.fp2Mul rd rs1 rs2) = ⟨fp2Slots a, fp2Slots b⟩ →
    ∃ t, exec (.fp2Mul rd rs1 rs2) s = .next t ∧ GroupHolds t rd (fp2Slots (fp2Mul s.par a b)) ∧
      Fp2Below s.par (fp2Mul s.par a b) ∧ t.cf = s.cf ∧ CommandFrame s t rd 2 ∧ t.draws = s.draws

/-- PT_DBL (R172): the point doubled `e` times with the curve pair read once, for every `e` from 0 (a copy) to 255, below
`2p`; CF is unchanged. -/
def Obligations.PtDblResult : Prop :=
  ∀ (s : State) (rd rs1 rs2 : SlotIx) (e : Fin 256) (q : Point) (a24plus c24 : Fp2), s.par.admitted →
    Ready s (.ptDbl rd rs1 rs2 e) → PointBelow s.par q → Fp2Below s.par a24plus → Fp2Below s.par c24 →
    s.sourcesOf (.ptDbl rd rs1 rs2 e) = ⟨pointSlots q, fp2Slots a24plus ++ fp2Slots c24⟩ →
    ∃ t q', exec (.ptDbl rd rs1 rs2 e) s = .next t ∧ q' = Nat.iterate (fun q => xdbl s.par q a24plus c24) e q ∧
      GroupHolds t rd (pointSlots q') ∧ PointBelow s.par q' ∧ t.cf = s.cf ∧ CommandFrame s t rd 4 ∧ t.draws = s.draws

/-- ISO4_EVAL (R174): the point `EVAL4` gives with coefficients K0, K1, K2, below `2p`; CF is unchanged. -/
def Obligations.Iso4EvalResult : Prop :=
  ∀ (s : State) (rd rs1 rs2 : SlotIx) (q : Point) (k0 k1 k2 : Fp2), s.par.admitted →
    Ready s (.iso4Eval rd rs1 rs2) → PointBelow s.par q → Fp2Below s.par k0 → Fp2Below s.par k1 → Fp2Below s.par k2 →
    s.sourcesOf (.iso4Eval rd rs1 rs2) = ⟨pointSlots q, fp2Slots k0 ++ fp2Slots k1 ++ fp2Slots k2⟩ →
    ∃ t, exec (.iso4Eval rd rs1 rs2) s = .next t ∧ GroupHolds t rd (pointSlots (eval4 s.par q k0 k1 k2)) ∧
      PointBelow s.par (eval4 s.par q k0 k1 k2) ∧ t.cf = s.cf ∧ CommandFrame s t rd 4 ∧ t.draws = s.draws

/-- ISO3_EVAL (R176): the point `EVAL3` gives with coefficients K0, K1, below `2p`; CF is unchanged. -/
def Obligations.Iso3EvalResult : Prop :=
  ∀ (s : State) (rd rs1 rs2 : SlotIx) (q : Point) (k0 k1 : Fp2), s.par.admitted →
    Ready s (.iso3Eval rd rs1 rs2) → PointBelow s.par q → Fp2Below s.par k0 → Fp2Below s.par k1 →
    s.sourcesOf (.iso3Eval rd rs1 rs2) = ⟨pointSlots q, fp2Slots k0 ++ fp2Slots k1⟩ →
    ∃ t, exec (.iso3Eval rd rs1 rs2) s = .next t ∧ GroupHolds t rd (pointSlots (eval3 s.par q k0 k1)) ∧
      PointBelow s.par (eval3 s.par q k0 k1) ∧ t.cf = s.cf ∧ CommandFrame s t rd 4 ∧ t.draws = s.draws

/-- R92: the pseudo-instructions FP_TOMONT, FP_FROMMONT, MP_MOV and PT_MOV give the results of the table. -/
def Obligations.PseudoInstructions : Prop :=
  (∀ (s : State) (d a r2 : SlotIx) (x : Nat), s.par.admitted → Ready s (fpToMont d a r2) → x < 2 * s.par.p →
    s.sourcesOf (fpToMont d a r2) = ⟨[x], [s.par.r ^ 2 % s.par.p]⟩ →
    ∃ t, exec (fpToMont d a r2) s = .next t ∧ t.slot d ≡ x * s.par.r [MOD s.par.p] ∧ t.slot d < 2 * s.par.p) ∧
  (∀ (s : State) (d a one : SlotIx) (x : Nat), s.par.admitted → Ready s (fpFromMont d a one) → x < 2 * s.par.p →
    s.sourcesOf (fpFromMont d a one) = ⟨[x], [1]⟩ →
    ∃ t, exec (fpFromMont d a one) s = .next t ∧ t.slot d = redc s.par x ∧ t.slot d * s.par.r ≡ x [MOD s.par.p] ∧
      t.slot d ≤ s.par.p ∧ (t.slot d = s.par.p ↔ s.par.p ∣ x ∧ x ≠ 0)) ∧
  (∀ (s : State) (d a z : SlotIx) (x : Nat), Ready s (mpMov d a z) → x < s.par.r →
    s.sourcesOf (mpMov d a z) = ⟨[x], [0]⟩ →
    ∃ t, exec (mpMov d a z) s = .next t ∧ t.slot d = x ∧ t.cf = false) ∧
  (∀ (s : State) (d q c : SlotIx) (p : Point) (a24plus c24 : Fp2), s.par.admitted → Ready s (ptMov d q c) →
    PointBelow s.par p → Fp2Below s.par a24plus → Fp2Below s.par c24 →
    s.sourcesOf (ptMov d q c) = ⟨pointSlots p, fp2Slots a24plus ++ fp2Slots c24⟩ →
    ∃ t, exec (ptMov d q c) s = .next t ∧ GroupHolds t d (pointSlots p))

/-! ### The arithmetic -/

/-- R120, R126: for `T < p·R` there is exactly one `M < R` with `T + M·p ≡ 0 (mod R)`, and REDC is `(T + M·p)/R`; it is below
`2p`, congruent to `T·R^(−1)`, 0 exactly for `T = 0`, and at most `p` for `T < 2p`, `p` only for a non-zero multiple of `p`;
a product of Montgomery forms is the Montgomery form of the product. -/
def Obligations.MontgomeryReduction : Prop :=
  ∀ par : Params, par.admitted →
    (∀ t, t < par.p * par.r →
      (∃! m, m < par.r ∧ (t + m * par.p) % par.r = 0) ∧
      (∀ m, m < par.r → (t + m * par.p) % par.r = 0 → redc par t = (t + m * par.p) / par.r) ∧
      redc par t < 2 * par.p ∧ redc par t * par.r ≡ t [MOD par.p] ∧ (redc par t = 0 ↔ t = 0) ∧
      (t < 2 * par.p → redc par t ≤ par.p ∧ (redc par t = par.p → t % par.p = 0 ∧ t ≠ 0))) ∧
    (∀ a b x y, a < 2 * par.p → b < 2 * par.p → a ≡ x * par.r [MOD par.p] → b ≡ y * par.r [MOD par.p] →
      fpMul par a b ≡ x * y * par.r [MOD par.p])

/-- R121: the word-by-word reduction gives the value of REDC, for every admitted parameter set and every `T < p·R`. -/
def Obligations.WordByWordReductionAgrees : Prop :=
  ∀ (par : Params) (t : Nat), par.admitted → t < par.p * par.r → redcWords par t = redc par t

/-- R122, R123: field addition and subtraction, the masked correction by `2p`, stay below `2p` and are congruent to the sum
and difference; `FPSUB(a, a) = 0`. -/
def Obligations.FieldAddAndSubtract : Prop :=
  ∀ (par : Params) (a b : Nat), a < 2 * par.p → b < 2 * par.p →
    (fpAdd par a b = if 2 * par.p ≤ a + b then a + b - 2 * par.p else a + b) ∧ fpAdd par a b < 2 * par.p ∧
    fpAdd par a b ≡ a + b [MOD par.p] ∧
    (fpSub par a b = if b ≤ a then a - b else a + 2 * par.p - b) ∧ fpSub par a b < 2 * par.p ∧
    fpSub par a b + b ≡ a [MOD par.p] ∧ fpSub par a a = 0

/-- R125: FP_SQR equals FP_MUL of the same operand with itself bit for bit, for every written operand below `2p`, from an
idle core, where `exec` samples the slots as they stand (log 10). -/
def Obligations.SquareEqualsProductWithItself : Prop :=
  ∀ (s : State) (rd rs : SlotIx), s.seq = .idle → s.unwritten (.fpSqr rd rs) = none → s.slot rs < 2 * s.par.p →
    ∃ t u, exec (.fpSqr rd rs) s = .next t ∧ exec (.fpMul rd rs rs) s = .next u ∧ t.slots = u.slots ∧ t.cf = u.cf

/-- R129: MP_MUL followed by FP_RDC on its result equals FP_MUL on the same operands whenever both are below `2p`, from idle
cores, where `exec` samples the slots as they stand (log 10). -/
def Obligations.MultiplyThenReduceEqualsFpMul : Prop :=
  ∀ (s : State) (rd rt rs1 rs2 : SlotIx), s.par.admitted → s.seq = .idle → Ready s (.mpMul rt rs1 rs2) →
    Ready s (.fpMul rd rs1 rs2) → s.unwritten (.fpMul rd rs1 rs2) = none →
    s.slot rs1 < 2 * s.par.p → s.slot rs2 < 2 * s.par.p →
    ∃ m t u, exec (.mpMul rt rs1 rs2) s = .next m ∧ exec (.fpRdc rd rt) m = .next t ∧
      exec (.fpMul rd rs1 rs2) s = .next u ∧ t.slot rd = u.slot rd

/-- R103: the operand-scanning loop on the digits of two slots gives the digits of their exact product. -/
def Obligations.SchoolbookLoopIsTheProduct : Prop :=
  ∀ (w n a b : Nat), a < 2 ^ (n * w) → b < 2 ^ (n * w) →
    schoolbookLoop w (digitsOf w n b) (digitsOf w n a) (List.replicate n 0) = digitsOf w (2 * n) (a * b)

/-- R150, R151, R152: FP2 addition, subtraction and squaring keep the working range, and squaring is congruent to
`(a0² − a1²)·R^(−1)` and `2·a0·a1·R^(−1)`. -/
def Obligations.ExtensionAddSubtractSquare : Prop :=
  ∀ (par : Params) (a b : Fp2), par.admitted → Fp2Below par a → Fp2Below par b →
    Fp2Below par (fp2Add par a b) ∧ Fp2Below par (fp2Sub par a b) ∧ Fp2Below par (fp2Sqr par a) ∧
    element par (fp2Add par a b) = element par a + element par b ∧
    element par (fp2Sub par a b) = element par a - element par b ∧
    element par (fp2Sqr par a) = square (element par a)

/-- R154: FP2MUL is in range and congruent to the product, commutes bit for bit, is exactly `(0, 0)` if an input is, and is
`(FPMUL(x, y), 0)` on real inputs. -/
def Obligations.ExtensionMultiplyProperties : Prop :=
  ∀ (par : Params), par.admitted →
    (∀ a b : Fp2, Fp2Below par a → Fp2Below par b →
      Fp2Below par (fp2Mul par a b) ∧
      ((fp2Mul par a b).a0 * par.r : Int) ≡ a.a0 * b.a0 - a.a1 * b.a1 [ZMOD par.p] ∧
      ((fp2Mul par a b).a1 * par.r : Int) ≡ a.a0 * b.a1 + a.a1 * b.a0 [ZMOD par.p] ∧
      element par (fp2Mul par a b) = times (element par a) (element par b) ∧
      fp2Mul par a b = fp2Mul par b a ∧ fp2Mul par ⟨0, 0⟩ b = ⟨0, 0⟩ ∧ fp2Mul par a ⟨0, 0⟩ = ⟨0, 0⟩) ∧
    (∀ x y, x < 2 * par.p → y < 2 * par.p → fp2Mul par ⟨x, 0⟩ ⟨y, 0⟩ = ⟨fpMul par x y, 0⟩)

/-- R171: doubling gives `X2 = C24·(X−Z)²·(X+Z)²` and `Z2 = 4XZ·(C24·(X−Z)² + A24plus·4XZ)`, and keeps the working range. -/
def Obligations.DoublingClosedForm : Prop :=
  ∀ (par : Params) (q : Point) (a24plus c24 : Fp2), par.admitted → PointBelow par q → Fp2Below par a24plus →
    Fp2Below par c24 → ∀ x z a c xz4, x = element par q.x → z = element par q.z → a = element par a24plus →
    c = element par c24 → xz4 = (4 : ZMod par.p) • times x z →
    PointBelow par (xdbl par q a24plus c24) ∧
    element par (xdbl par q a24plus c24).x = times (times c (square (x - z))) (square (x + z)) ∧
    element par (xdbl par q a24plus c24).z = times xz4 (times c (square (x - z)) + times a xz4)

/-- R173, R175: the closed forms of the isogeny evaluations: with `u = (X+Z)·K1`, `v = (X−Z)·K2`, `w = K0·(X+Z)·(X−Z)`,
EVAL4 is `((u+v)² + w)·(u+v)²` and `((u−v)² − w)·(u−v)²`; EVAL3 is `X·[K0·(X+Z) + K1·(X−Z)]²` and
`Z·[K1·(X−Z) − K0·(X+Z)]²`. -/
def Obligations.IsogenyClosedForms : Prop :=
  ∀ (par : Params) (q : Point) (k0 k1 k2 : Fp2), par.admitted → PointBelow par q → Fp2Below par k0 → Fp2Below par k1 →
    Fp2Below par k2 → ∀ x z e0 e1 e2 u v w, x = element par q.x → z = element par q.z → e0 = element par k0 →
    e1 = element par k1 → e2 = element par k2 → u = times (x + z) e1 → v = times (x - z) e2 →
    w = times e0 (times (x + z) (x - z)) →
    PointBelow par (eval4 par q k0 k1 k2) ∧ PointBelow par (eval3 par q k0 k1) ∧
    element par (eval4 par q k0 k1 k2).x = times (square (u + v) + w) (square (u + v)) ∧
    element par (eval4 par q k0 k1 k2).z = times (square (u - v) - w) (square (u - v)) ∧
    element par (eval3 par q k0 k1).x = times x (square (times e0 (x + z) + times e1 (x - z))) ∧
    element par (eval3 par q k0 k1).z = times z (square (times e1 (x - z) - times e0 (x + z)))

/-- R177: for every point in range, EVAL4 with `K1 = FP2SUB(X, Z)`, `K2 = FP2ADD(X, Z)` and any `K0` in range, and EVAL3 with
`K0 = FP2SUB(X, Z)`, `K1 = FP2ADD(X, Z)`, have `Z = (0, 0)` exactly; so the commands ISO4_EVAL and ISO3_EVAL write zeros to
the destination's Z slots. -/
def Obligations.KernelPointMapsToInfinity : Prop :=
  ∀ (s : State) (rd rs1 rs2 : SlotIx) (q : Point) (k0 : Fp2), s.par.admitted → PointBelow s.par q → Fp2Below s.par k0 →
    (eval4 s.par q k0 (fp2Sub s.par q.x q.z) (fp2Add s.par q.x q.z)).z = ⟨0, 0⟩ ∧
    (eval3 s.par q (fp2Sub s.par q.x q.z) (fp2Add s.par q.x q.z)).z = ⟨0, 0⟩ ∧
    (Ready s (.iso4Eval rd rs1 rs2) → s.sourcesOf (.iso4Eval rd rs1 rs2) =
        ⟨pointSlots q, fp2Slots k0 ++ fp2Slots (fp2Sub s.par q.x q.z) ++ fp2Slots (fp2Add s.par q.x q.z)⟩ →
      ∃ t, exec (.iso4Eval rd rs1 rs2) s = .next t ∧ t.slot (rd.val + 2) = 0 ∧ t.slot (rd.val + 3) = 0) ∧
    (Ready s (.iso3Eval rd rs1 rs2) → s.sourcesOf (.iso3Eval rd rs1 rs2) =
        ⟨pointSlots q, fp2Slots (fp2Sub s.par q.x q.z) ++ fp2Slots (fp2Add s.par q.x q.z)⟩ →
      ∃ t, exec (.iso3Eval rd rs1 rs2) s = .next t ∧ t.slot (rd.val + 2) = 0 ∧ t.slot (rd.val + 3) = 0)

/-- R132: FP_INV inverts: in Montgomery form, for every well-formed chain, the result times the operand is 1 if the operand
is not 0 modulo `p`; a zero operand gives a zero, and 0 gives exactly 0. -/
def Obligations.InversionIsCorrect : Prop :=
  ∀ (s : State) (rd rs1 : SlotIx) (a : Nat), s.par.admitted → Ready s (.fpInv rd rs1) → a < 2 * s.par.p →
    s.sourcesOf (.fpInv rd rs1) = ⟨[a], []⟩ →
    ∃ t, exec (.fpInv rd rs1) s = .next t ∧ t.slot rd < 2 * s.par.p ∧
      (¬ s.par.p ∣ a → residue s.par (t.slot rd) * residue s.par a = 1) ∧
      (s.par.p ∣ a → s.par.p ∣ t.slot rd) ∧ (a = 0 → t.slot rd = 0)

/-- R131: the default chain is well formed for every `p` from 3 on (for 3 it is empty), with `L − 1` squarings and `popcount(p − 2) − 1`
multiplications. -/
def Obligations.DefaultChainIsWellFormed : Prop :=
  ∀ p : Nat, 3 ≤ p →
    (defaultChain p).all (ChainStep.inBounds 2) = true ∧
    (chainExponents 2 (defaultChain p)).getD 0 0 = p - 2 ∧
    ((defaultChain p).filter (· = .sqr 0 0)).length = (p - 2).log2 ∧
    ((defaultChain p).filter (· = .mul 0 0 1)).length =
      ((List.range ((p - 2).log2 + 1)).filter fun k => (p - 2).testBit k).length - 1 ∧
    (∀ st ∈ defaultChain p, st = .sqr 0 0 ∨ st = .mul 0 0 1)
end

