-- ==== Sys2Proof/Laws/Digits.lean ====
section
/-! SUPPORT. Digits and values (R21): the digits of a value give it back, and the value of digits is below `2^(n·w)`. -/
namespace Sys2Proof.Machine

@[simp] theorem digitsOf_length (w n v : Nat) : (digitsOf w n v).length = n := by
  induction n generalizing v with
  | zero => rfl
  | succ n ih => simp [digitsOf, ih]

theorem digitsOf_lt {w n v d : Nat} (h : d ∈ digitsOf w n v) : d < 2 ^ w := by
  induction n generalizing v with
  | zero => simp [digitsOf] at h
  | succ n ih =>
    rcases List.mem_cons.1 h with rfl | h
    · exact Nat.mod_lt _ (by positivity)
    · exact ih h

/-- A slot keeps a value modulo `2^(N·W)`. -/
theorem valueOf_digitsOf (w n v : Nat) : valueOf w (digitsOf w n v) = v % 2 ^ (n * w) := by
  induction n generalizing v with
  | zero => simp [digitsOf, valueOf, Nat.mod_one]
  | succ n ih =>
    rw [digitsOf, valueOf, ih, Nat.succ_mul, Nat.add_comm (n * w), Nat.pow_add, Nat.mod_mul]

theorem valueOf_lt {w : Nat} {ds : List Nat} (h : ∀ d ∈ ds, d < 2 ^ w) : valueOf w ds < 2 ^ (ds.length * w) := by
  induction ds with
  | nil => simp [valueOf]
  | cons d ds ih =>
    have hd : d < 2 ^ w := h d (by simp)
    have hv := ih fun x hx => h x (by simp [hx])
    rw [valueOf, List.length_cons, Nat.succ_mul, Nat.add_comm (ds.length * w), Nat.pow_add]
    calc d + 2 ^ w * valueOf w ds < 2 ^ w + 2 ^ w * valueOf w ds := by omega
      _ = 2 ^ w * (valueOf w ds + 1) := by ring
      _ ≤ 2 ^ w * 2 ^ (ds.length * w) := Nat.mul_le_mul_left _ hv

/-- A value is the sum of its digits at their places: digit `j` of the slot of a value is its bits `[j·W+W−1 : j·W]`. -/
theorem digitsOf_getElem? (w n v j : Nat) (h : j < n) : (digitsOf w n v)[j]? = some (v / 2 ^ (j * w) % 2 ^ w) := by
  induction n generalizing v j with
  | zero => omega
  | succ n ih =>
    cases j with
    | zero => simp [digitsOf]
    | succ j =>
      rw [digitsOf, List.getElem?_cons_succ, ih _ _ (by omega), Nat.div_div_eq_div_mul, ← Nat.pow_add, Nat.succ_mul,
        Nat.add_comm w]

end Sys2Proof.Machine
end

