-- ==== Sys2Proof/Laws/State.lean ====
section
/-! SUPPORT. What each update of the state does to each field, one lemma per field per update. -/
namespace Sys2Proof.Machine

variable (s : State)

/-! ### an illegal word (R202) -/
@[simp] theorem State.refuse_par (e : IllCode) : (s.refuse e).par = s.par := rfl
@[simp] theorem State.refuse_slots (e : IllCode) : (s.refuse e).slots = s.slots := rfl
@[simp] theorem State.refuse_cf (e : IllCode) : (s.refuse e).cf = s.cf := rfl
@[simp] theorem State.refuse_ill (e : IllCode) : (s.refuse e).ill = true := rfl
@[simp] theorem State.refuse_haz (e : IllCode) : (s.refuse e).haz = s.haz := rfl
@[simp] theorem State.refuse_ecode (e : IllCode) : (s.refuse e).ecode = .ill e := rfl
@[simp] theorem State.refuse_cmd (e : IllCode) : (s.refuse e).cmd = s.cmd := rfl
@[simp] theorem State.refuse_seq (e : IllCode) : (s.refuse e).seq = s.seq := rfl
@[simp] theorem State.refuse_temps (e : IllCode) : (s.refuse e).temps = s.temps := rfl
@[simp] theorem State.refuse_faults (e : IllCode) : (s.refuse e).faults = addFault (.illegalCommand e) s.faults := rfl
@[simp] theorem State.refuse_draws (e : IllCode) : (s.refuse e).draws = s.draws := rfl
@[simp] theorem State.refuse_inputs (e : IllCode) : (s.refuse e).inputs = s.inputs := rfl
@[simp] theorem State.refuse_readData (e : IllCode) : (s.refuse e).readData = s.readData := rfl

/-! ### a dropped write (R203) -/
@[simp] theorem State.hazard_par (e : HazCode) : (s.hazard e).par = s.par := rfl
@[simp] theorem State.hazard_slots (e : HazCode) : (s.hazard e).slots = s.slots := rfl
@[simp] theorem State.hazard_cf (e : HazCode) : (s.hazard e).cf = s.cf := rfl
@[simp] theorem State.hazard_ill (e : HazCode) : (s.hazard e).ill = s.ill := rfl
@[simp] theorem State.hazard_haz (e : HazCode) : (s.hazard e).haz = true := rfl
@[simp] theorem State.hazard_ecode (e : HazCode) : (s.hazard e).ecode = .haz e := rfl
@[simp] theorem State.hazard_cmd (e : HazCode) : (s.hazard e).cmd = s.cmd := rfl
@[simp] theorem State.hazard_seq (e : HazCode) : (s.hazard e).seq = s.seq := rfl
@[simp] theorem State.hazard_temps (e : HazCode) : (s.hazard e).temps = s.temps := rfl
@[simp] theorem State.hazard_faults (e : HazCode) : (s.hazard e).faults = addFault (.busyHazard e) s.faults := rfl
@[simp] theorem State.hazard_draws (e : HazCode) : (s.hazard e).draws = s.draws := rfl
@[simp] theorem State.hazard_inputs (e : HazCode) : (s.hazard e).inputs = s.inputs := rfl
@[simp] theorem State.hazard_readData (e : HazCode) : (s.hazard e).readData = s.readData := rfl

/-! ### acceptance (R31) -/
@[simp] theorem State.accept_par (c : Word) (i : Instr) : (s.accept c i).par = s.par := rfl
@[simp] theorem State.accept_slots (c : Word) (i : Instr) : (s.accept c i).slots = s.slots := rfl
@[simp] theorem State.accept_cf (c : Word) (i : Instr) : (s.accept c i).cf = s.cf := rfl
@[simp] theorem State.accept_ill (c : Word) (i : Instr) : (s.accept c i).ill = s.ill := rfl
@[simp] theorem State.accept_haz (c : Word) (i : Instr) : (s.accept c i).haz = s.haz := rfl
@[simp] theorem State.accept_ecode (c : Word) (i : Instr) : (s.accept c i).ecode = s.ecode := rfl
@[simp] theorem State.accept_cmd (c : Word) (i : Instr) : (s.accept c i).cmd = c := rfl
@[simp] theorem State.accept_seq (c : Word) (i : Instr) : (s.accept c i).seq = .running i (s.sample i) := rfl
@[simp] theorem State.accept_temps (c : Word) (i : Instr) : (s.accept c i).temps = s.temps := rfl
@[simp] theorem State.accept_faults (c : Word) (i : Instr) : (s.accept c i).faults = recordFault (s.acceptFault i) s.faults := rfl
@[simp] theorem State.accept_draws (c : Word) (i : Instr) : (s.accept c i).draws = if (s.unwritten i).isNone then s.draws else s.draws + s.par.windowSize := rfl
@[simp] theorem State.accept_inputs (c : Word) (i : Instr) : (s.accept c i).inputs = s.inputs := rfl
@[simp] theorem State.accept_readData (c : Word) (i : Instr) : (s.accept c i).readData = s.readData := rfl

/-! ### completion (R31) -/
@[simp] theorem State.retire_par (i : Instr) (src : Sources) (e : Effect) : (s.retire i src e).par = s.par := rfl
@[simp] theorem State.retire_slots (i : Instr) (src : Sources) (e : Effect) : (s.retire i src e).slots = writeSlots s.par s.slots i.dst.base.val e.dsts := rfl
@[simp] theorem State.retire_cf (i : Instr) (src : Sources) (e : Effect) : (s.retire i src e).cf = e.cf.getD s.cf := rfl
@[simp] theorem State.retire_ill (i : Instr) (src : Sources) (e : Effect) : (s.retire i src e).ill = s.ill := rfl
@[simp] theorem State.retire_haz (i : Instr) (src : Sources) (e : Effect) : (s.retire i src e).haz = s.haz := rfl
@[simp] theorem State.retire_ecode (i : Instr) (src : Sources) (e : Effect) : (s.retire i src e).ecode = s.ecode := rfl
@[simp] theorem State.retire_cmd (i : Instr) (src : Sources) (e : Effect) : (s.retire i src e).cmd = s.cmd := rfl
@[simp] theorem State.retire_seq (i : Instr) (src : Sources) (e : Effect) : (s.retire i src e).seq = .idle := rfl
@[simp] theorem State.retire_temps (i : Instr) (src : Sources) (e : Effect) : (s.retire i src e).temps = e.temps.getD (Config.hiddenTemps (encode i) src.rs1 src.rs2) := rfl
@[simp] theorem State.retire_faults (i : Instr) (src : Sources) (e : Effect) : (s.retire i src e).faults = s.faults := rfl
@[simp] theorem State.retire_draws (i : Instr) (src : Sources) (e : Effect) : (s.retire i src e).draws = s.draws := rfl
@[simp] theorem State.retire_inputs (i : Instr) (src : Sources) (e : Effect) : (s.retire i src e).inputs = s.inputs := rfl
@[simp] theorem State.retire_readData (i : Instr) (src : Sources) (e : Effect) : (s.retire i src e).readData = s.readData := rfl

/-! ### completion out of range (R207) -/
@[simp] theorem State.retireUnspecified_par (i : Instr) (src : Sources) : (s.retireUnspecified i src).par = s.par := rfl
@[simp] theorem State.retireUnspecified_slots (i : Instr) (src : Sources) : (s.retireUnspecified i src).slots = writeSlots s.par s.slots i.dst.base.val (freeSlots s.par s.draws i.dst.group.width) := rfl
@[simp] theorem State.retireUnspecified_cf (i : Instr) (src : Sources) : (s.retireUnspecified i src).cf = s.cf := rfl
@[simp] theorem State.retireUnspecified_ill (i : Instr) (src : Sources) : (s.retireUnspecified i src).ill = s.ill := rfl
@[simp] theorem State.retireUnspecified_haz (i : Instr) (src : Sources) : (s.retireUnspecified i src).haz = s.haz := rfl
@[simp] theorem State.retireUnspecified_ecode (i : Instr) (src : Sources) : (s.retireUnspecified i src).ecode = s.ecode := rfl
@[simp] theorem State.retireUnspecified_cmd (i : Instr) (src : Sources) : (s.retireUnspecified i src).cmd = s.cmd := rfl
@[simp] theorem State.retireUnspecified_seq (i : Instr) (src : Sources) : (s.retireUnspecified i src).seq = .idle := rfl
@[simp] theorem State.retireUnspecified_temps (i : Instr) (src : Sources) : (s.retireUnspecified i src).temps = Config.hiddenTemps (encode i) src.rs1 src.rs2 := rfl
@[simp] theorem State.retireUnspecified_faults (i : Instr) (src : Sources) : (s.retireUnspecified i src).faults = s.faults := rfl
@[simp] theorem State.retireUnspecified_draws (i : Instr) (src : Sources) : (s.retireUnspecified i src).draws = s.draws + i.dst.group.width := rfl
@[simp] theorem State.retireUnspecified_inputs (i : Instr) (src : Sources) : (s.retireUnspecified i src).inputs = s.inputs := rfl
@[simp] theorem State.retireUnspecified_readData (i : Instr) (src : Sources) : (s.retireUnspecified i src).readData = s.readData := rfl

/-! ### wipe start (R232) -/
@[simp] theorem State.wipeStart_par : (s.wipeStart).par = s.par := rfl
@[simp] theorem State.wipeStart_slots : (s.wipeStart).slots = s.slots := rfl
@[simp] theorem State.wipeStart_cf : (s.wipeStart).cf = s.cf := rfl
@[simp] theorem State.wipeStart_ill : (s.wipeStart).ill = s.ill := rfl
@[simp] theorem State.wipeStart_haz : (s.wipeStart).haz = s.haz := rfl
@[simp] theorem State.wipeStart_ecode : (s.wipeStart).ecode = s.ecode := rfl
@[simp] theorem State.wipeStart_cmd : (s.wipeStart).cmd = s.cmd := rfl
@[simp] theorem State.wipeStart_seq : (s.wipeStart).seq = .wiping := rfl
@[simp] theorem State.wipeStart_temps : (s.wipeStart).temps = s.temps := rfl
@[simp] theorem State.wipeStart_faults : (s.wipeStart).faults = s.faults := rfl
@[simp] theorem State.wipeStart_draws : (s.wipeStart).draws = s.draws := rfl
@[simp] theorem State.wipeStart_inputs : (s.wipeStart).inputs = s.inputs := rfl
@[simp] theorem State.wipeStart_readData : (s.wipeStart).readData = s.readData := rfl

/-! ### wipe completion (R232) -/
@[simp] theorem State.wipeComplete_par : (s.wipeComplete).par = s.par := rfl
@[simp] theorem State.wipeComplete_slots : (s.wipeComplete).slots = wipedSlots s.slots := rfl
@[simp] theorem State.wipeComplete_cf : (s.wipeComplete).cf = false := rfl
@[simp] theorem State.wipeComplete_ill : (s.wipeComplete).ill = s.ill := rfl
@[simp] theorem State.wipeComplete_haz : (s.wipeComplete).haz = s.haz := rfl
@[simp] theorem State.wipeComplete_ecode : (s.wipeComplete).ecode = s.ecode := rfl
@[simp] theorem State.wipeComplete_cmd : (s.wipeComplete).cmd = s.cmd := rfl
@[simp] theorem State.wipeComplete_seq : (s.wipeComplete).seq = .idle := rfl
@[simp] theorem State.wipeComplete_temps : (s.wipeComplete).temps = s.temps.map fun _ => 0 := rfl
@[simp] theorem State.wipeComplete_faults : (s.wipeComplete).faults = s.faults := rfl
@[simp] theorem State.wipeComplete_draws : (s.wipeComplete).draws = s.draws := rfl
@[simp] theorem State.wipeComplete_inputs : (s.wipeComplete).inputs = s.inputs := rfl
@[simp] theorem State.wipeComplete_readData : (s.wipeComplete).readData = s.readData := rfl

/-! ### the reset input (R230) -/
@[simp] theorem State.resetInput_par : (s.resetInput).par = s.par := rfl
@[simp] theorem State.resetInput_slots : (s.resetInput).slots = resetSlots s.par := rfl
@[simp] theorem State.resetInput_cf : (s.resetInput).cf = false := rfl
@[simp] theorem State.resetInput_ill : (s.resetInput).ill = false := rfl
@[simp] theorem State.resetInput_haz : (s.resetInput).haz = false := rfl
@[simp] theorem State.resetInput_ecode : (s.resetInput).ecode = .none := rfl
@[simp] theorem State.resetInput_cmd : (s.resetInput).cmd = 0 := rfl
@[simp] theorem State.resetInput_seq : (s.resetInput).seq = .idle := rfl
@[simp] theorem State.resetInput_temps : (s.resetInput).temps = Config.lostTemps s.draws := rfl
@[simp] theorem State.resetInput_faults : (s.resetInput).faults = s.faults := rfl
@[simp] theorem State.resetInput_draws : (s.resetInput).draws = s.draws + 1 := rfl
@[simp] theorem State.resetInput_inputs : (s.resetInput).inputs = s.inputs := rfl
@[simp] theorem State.resetInput_readData : (s.resetInput).readData = s.readData := rfl

/-! ### a STATUS write (R27) -/
@[simp] theorem State.clearStatus_par (v : BusWord) : (s.clearStatus v).par = s.par := rfl
@[simp] theorem State.clearStatus_slots (v : BusWord) : (s.clearStatus v).slots = s.slots := rfl
@[simp] theorem State.clearStatus_cf (v : BusWord) : (s.clearStatus v).cf = s.cf := rfl
@[simp] theorem State.clearStatus_ill (v : BusWord) : (s.clearStatus v).ill = (s.ill && !v.getLsbD 1) := rfl
@[simp] theorem State.clearStatus_haz (v : BusWord) : (s.clearStatus v).haz = (s.haz && !v.getLsbD 2) := rfl
@[simp] theorem State.clearStatus_ecode (v : BusWord) : (s.clearStatus v).ecode = if (s.ill && !v.getLsbD 1) || (s.haz && !v.getLsbD 2) then s.ecode else .none := rfl
@[simp] theorem State.clearStatus_cmd (v : BusWord) : (s.clearStatus v).cmd = s.cmd := rfl
@[simp] theorem State.clearStatus_seq (v : BusWord) : (s.clearStatus v).seq = s.seq := rfl
@[simp] theorem State.clearStatus_temps (v : BusWord) : (s.clearStatus v).temps = s.temps := rfl
@[simp] theorem State.clearStatus_faults (v : BusWord) : (s.clearStatus v).faults = s.faults := rfl
@[simp] theorem State.clearStatus_draws (v : BusWord) : (s.clearStatus v).draws = s.draws := rfl
@[simp] theorem State.clearStatus_inputs (v : BusWord) : (s.clearStatus v).inputs = s.inputs := rfl
@[simp] theorem State.clearStatus_readData (v : BusWord) : (s.clearStatus v).readData = s.readData := rfl

/-! ### a digit write (R57) -/
@[simp] theorem State.setDigit_par (k j : Nat) (v : BusWord) : (s.setDigit k j v).par = s.par := rfl
@[simp] theorem State.setDigit_slots (k j : Nat) (v : BusWord) : (s.setDigit k j v).slots = s.slots.set k ((slotAt s.slots k).set j ⟨v.toNat % 2 ^ s.par.w, true⟩) := rfl
@[simp] theorem State.setDigit_cf (k j : Nat) (v : BusWord) : (s.setDigit k j v).cf = s.cf := rfl
@[simp] theorem State.setDigit_ill (k j : Nat) (v : BusWord) : (s.setDigit k j v).ill = s.ill := rfl
@[simp] theorem State.setDigit_haz (k j : Nat) (v : BusWord) : (s.setDigit k j v).haz = s.haz := rfl
@[simp] theorem State.setDigit_ecode (k j : Nat) (v : BusWord) : (s.setDigit k j v).ecode = s.ecode := rfl
@[simp] theorem State.setDigit_cmd (k j : Nat) (v : BusWord) : (s.setDigit k j v).cmd = s.cmd := rfl
@[simp] theorem State.setDigit_seq (k j : Nat) (v : BusWord) : (s.setDigit k j v).seq = s.seq := rfl
@[simp] theorem State.setDigit_temps (k j : Nat) (v : BusWord) : (s.setDigit k j v).temps = s.temps := rfl
@[simp] theorem State.setDigit_faults (k j : Nat) (v : BusWord) : (s.setDigit k j v).faults = s.faults := rfl
@[simp] theorem State.setDigit_draws (k j : Nat) (v : BusWord) : (s.setDigit k j v).draws = s.draws := rfl
@[simp] theorem State.setDigit_inputs (k j : Nat) (v : BusWord) : (s.setDigit k j v).inputs = s.inputs := rfl
@[simp] theorem State.setDigit_readData (k j : Nat) (v : BusWord) : (s.setDigit k j v).readData = s.readData := rfl

/-! ### a read (R56) -/
@[simp] theorem State.returns_par (v : BusWord) : (s.returns v).par = s.par := rfl
@[simp] theorem State.returns_slots (v : BusWord) : (s.returns v).slots = s.slots := rfl
@[simp] theorem State.returns_cf (v : BusWord) : (s.returns v).cf = s.cf := rfl
@[simp] theorem State.returns_ill (v : BusWord) : (s.returns v).ill = s.ill := rfl
@[simp] theorem State.returns_haz (v : BusWord) : (s.returns v).haz = s.haz := rfl
@[simp] theorem State.returns_ecode (v : BusWord) : (s.returns v).ecode = s.ecode := rfl
@[simp] theorem State.returns_cmd (v : BusWord) : (s.returns v).cmd = s.cmd := rfl
@[simp] theorem State.returns_seq (v : BusWord) : (s.returns v).seq = s.seq := rfl
@[simp] theorem State.returns_temps (v : BusWord) : (s.returns v).temps = s.temps := rfl
@[simp] theorem State.returns_faults (v : BusWord) : (s.returns v).faults = s.faults := rfl
@[simp] theorem State.returns_draws (v : BusWord) : (s.returns v).draws = s.draws := rfl
@[simp] theorem State.returns_inputs (v : BusWord) : (s.returns v).inputs = s.inputs := rfl
@[simp] theorem State.returns_readData (v : BusWord) : (s.returns v).readData = v := rfl

/-! ### a read of an unspecified value (R56) -/
@[simp] theorem State.returnsFree_par : (s.returnsFree).par = s.par := rfl
@[simp] theorem State.returnsFree_slots : (s.returnsFree).slots = s.slots := rfl
@[simp] theorem State.returnsFree_cf : (s.returnsFree).cf = s.cf := rfl
@[simp] theorem State.returnsFree_ill : (s.returnsFree).ill = s.ill := rfl
@[simp] theorem State.returnsFree_haz : (s.returnsFree).haz = s.haz := rfl
@[simp] theorem State.returnsFree_ecode : (s.returnsFree).ecode = s.ecode := rfl
@[simp] theorem State.returnsFree_cmd : (s.returnsFree).cmd = s.cmd := rfl
@[simp] theorem State.returnsFree_seq : (s.returnsFree).seq = s.seq := rfl
@[simp] theorem State.returnsFree_temps : (s.returnsFree).temps = s.temps := rfl
@[simp] theorem State.returnsFree_faults : (s.returnsFree).faults = s.faults := rfl
@[simp] theorem State.returnsFree_draws : (s.returnsFree).draws = s.draws + 1 := rfl
@[simp] theorem State.returnsFree_inputs : (s.returnsFree).inputs = s.inputs := rfl
@[simp] theorem State.returnsFree_readData : (s.returnsFree).readData = BitVec.ofNat 64 (Config.draw s.draws % 2 ^ s.par.w) := rfl

/-! ### reset (R36) -/
@[simp] theorem State.resetOf_par (par : Params) : (State.resetOf par).par = par := rfl
@[simp] theorem State.resetOf_slots (par : Params) : (State.resetOf par).slots = resetSlots par := rfl
@[simp] theorem State.resetOf_cf (par : Params) : (State.resetOf par).cf = false := rfl
@[simp] theorem State.resetOf_ill (par : Params) : (State.resetOf par).ill = false := rfl
@[simp] theorem State.resetOf_haz (par : Params) : (State.resetOf par).haz = false := rfl
@[simp] theorem State.resetOf_ecode (par : Params) : (State.resetOf par).ecode = .none := rfl
@[simp] theorem State.resetOf_cmd (par : Params) : (State.resetOf par).cmd = 0 := rfl
@[simp] theorem State.resetOf_seq (par : Params) : (State.resetOf par).seq = .idle := rfl
@[simp] theorem State.resetOf_temps (par : Params) : (State.resetOf par).temps = List.replicate par.temps 0 := rfl
@[simp] theorem State.resetOf_faults (par : Params) : (State.resetOf par).faults = [] := rfl
@[simp] theorem State.resetOf_draws (par : Params) : (State.resetOf par).draws = 0 := rfl
@[simp] theorem State.resetOf_inputs (par : Params) : (State.resetOf par).inputs = [] := rfl
@[simp] theorem State.resetOf_readData (par : Params) : (State.resetOf par).readData = 0 := rfl

end Sys2Proof.Machine
end

