-- ==== Sys2Proof/Laws/SlotFile.lean ====
section
/-! SUPPORT. The slot file: what writing a group does, that every operation keeps the canonical form, and what sampling gives
(R20, R22, R30, R31, R35). -/
namespace Sys2Proof.Machine

/-! ### Slots -/

@[simp] theorem writtenSlot_length (par : Params) (v : Nat) : (writtenSlot par v).length = par.n := by simp [writtenSlot]

/-- A written slot holds the value modulo `R`. -/
@[simp] theorem slotValue_writtenSlot (par : Params) (v : Nat) : slotValue par (writtenSlot par v) = v % par.r := by
  simp [slotValue, writtenSlot, Function.comp_def, valueOf_digitsOf, Params.r]

@[simp] theorem slotWritten_writtenSlot (par : Params) (v : Nat) : slotWritten (writtenSlot par v) = true := by
  simp [slotWritten, writtenSlot]

theorem slotWf_writtenSlot (par : Params) (v : Nat) : slotWf par (writtenSlot par v) = true := by
  simp only [slotWf, writtenSlot_length, decide_true, Bool.true_and, List.all_eq_true]
  intro d hd
  obtain ⟨x, hx, rfl⟩ := List.mem_map.1 hd
  simpa [digitWf] using digitsOf_lt hx

theorem slotFileWf_iff (par : Params) (slots : List Slot) :
    slotFileWf par slots = true ↔ slots.length = par.nslot ∧ ∀ sl ∈ slots, slotWf par sl = true := by
  simp [slotFileWf]

theorem slotFileWf_set {par : Params} {slots : List Slot} (h : slotFileWf par slots = true) (k : Nat) {sl : Slot}
    (hsl : slotWf par sl = true) : slotFileWf par (slots.set k sl) = true := by
  rw [slotFileWf_iff] at *
  refine ⟨by simp [h.1], fun x hx => ?_⟩
  rcases List.mem_or_eq_of_mem_set hx with hx | rfl
  · exact h.2 x hx
  · exact hsl

/-! ### Writing a group (R22, R30) -/

@[simp] theorem writeSlots_length (par : Params) (slots : List Slot) (s : Nat) (vs : List Nat) :
    (writeSlots par slots s vs).length = slots.length := by
  induction vs generalizing slots s with
  | nil => rfl
  | cons v vs ih => simp [writeSlots, ih]

/-- A slot outside the group keeps its digits and written bits. -/
theorem writeSlots_outside (par : Params) (slots : List Slot) (s k : Nat) (vs : List Nat)
    (h : k < s ∨ s + vs.length ≤ k) : (writeSlots par slots s vs)[k]? = slots[k]? := by
  induction vs generalizing slots s with
  | nil => rfl
  | cons v vs ih =>
    rw [writeSlots, ih _ _ (by simp at h; omega), List.getElem?_set_ne (by simp at h; omega)]

/-- Slot `j` of the group holds its value, written. -/
theorem writeSlots_inside (par : Params) (slots : List Slot) (s j v : Nat) (vs : List Nat) (h : vs[j]? = some v)
    (hb : s + vs.length ≤ slots.length) : (writeSlots par slots s vs)[s + j]? = some (writtenSlot par v) := by
  induction vs generalizing slots s j with
  | nil => simp at h
  | cons u vs ih =>
    simp only [List.length_cons] at hb
    cases j with
    | zero =>
      simp only [List.getElem?_cons_zero, Option.some.injEq] at h
      subst h
      rw [writeSlots, writeSlots_outside _ _ _ _ _ (.inl (by omega)), Nat.add_zero, List.getElem?_set_self (by omega)]
    | succ j =>
      rw [writeSlots, show s + (j + 1) = s + 1 + j by omega]
      exact ih (slots.set s _) (s + 1) j (by simpa using h) (by simp; omega)

theorem writeSlots_wf {par : Params} {slots : List Slot} (h : slotFileWf par slots = true) (s : Nat) (vs : List Nat) :
    slotFileWf par (writeSlots par slots s vs) = true := by
  induction vs generalizing slots s with
  | nil => exact h
  | cons v vs ih => exact ih (slotFileWf_set h s (slotWf_writtenSlot par v)) (s + 1)

/-! ### Every operation keeps the canonical form -/

theorem resetSlots_wf (par : Params) : slotFileWf par (resetSlots par) = true := by
  rw [slotFileWf_iff]
  refine ⟨by simp [resetSlots], fun sl hsl => ?_⟩
  obtain rfl := List.eq_of_mem_replicate hsl
  simp [slotWf, digitWf, Digit.unwritten]

theorem wipedSlots_wf {par : Params} {slots : List Slot} (h : slotFileWf par slots = true) :
    slotFileWf par (wipedSlots slots) = true := by
  rw [slotFileWf_iff] at *
  refine ⟨by simp [wipedSlots, h.1], fun sl hsl => ?_⟩
  obtain ⟨x, hx, rfl⟩ := List.mem_map.1 hsl
  have := h.2 x hx
  simp only [slotWf, Bool.and_eq_true, decide_eq_true_eq] at this
  simp [slotWf, digitWf, this.1]

theorem slotAt_wf {par : Params} {slots : List Slot} (h : slotFileWf par slots = true) {k : Nat}
    (hk : k < slots.length) : slotWf par (slotAt slots k) = true := by
  rw [slotFileWf_iff] at h
  rw [slotAt, List.getD_eq_getElem _ _ hk]
  exact h.2 _ (List.getElem_mem hk)

theorem setDigit_wf {s : State} (h : slotFileWf s.par s.slots = true) (k j : Nat) (v : BusWord) :
    slotFileWf s.par (s.setDigit k j v).slots = true := by
  by_cases hk : k < s.slots.length
  · refine slotFileWf_set h k ?_
    have hw := slotAt_wf h hk
    simp only [slotWf, Bool.and_eq_true, decide_eq_true_eq, List.all_eq_true] at hw ⊢
    refine ⟨by simp [hw.1], fun d hd => ?_⟩
    rcases List.mem_or_eq_of_mem_set hd with hd | rfl
    · exact hw.2 d hd
    · simp [digitWf, Nat.mod_lt]
  · rw [State.setDigit_slots, List.set_eq_of_length_le (by omega)]
    exact h

/-! ### Sampling (R31) -/

theorem sampleDigits_length (par : Params) (k : Nat) (sl : Slot) : (sampleDigits par k sl).length = sl.length := by
  induction sl generalizing k with
  | nil => rfl
  | cons d ds ih => simp [sampleDigits, ih]

/-- A slot whose digits are all written samples as its value, whatever the free values are. -/
theorem sampleDigits_written (par : Params) (k : Nat) {sl : Slot} (h : slotWritten sl = true) :
    sampleDigits par k sl = sl.map Digit.val := by
  induction sl generalizing k with
  | nil => rfl
  | cons d ds ih =>
    simp only [slotWritten, List.all_cons, Bool.and_eq_true] at h
    simp [sampleDigits, sampleDigit, h.1, ih (k + 1) h.2]

theorem sampleSlot_written (par : Params) (slots : List Slot) (draws k : Nat) (h : slotWritten (slotAt slots k) = true) :
    sampleSlot par slots draws k = slotValue par (slotAt slots k) := by
  rw [sampleSlot, sampleDigits_written par _ h, slotValue]

theorem firstUnwrittenDigit_eq_none (j : Nat) (sl : Slot) : firstUnwrittenDigit j sl = none ↔ slotWritten sl = true := by
  induction sl generalizing j with
  | nil => simp [firstUnwrittenDigit, slotWritten]
  | cons d ds ih =>
    simp only [slotWritten] at ih
    cases hd : d.written <;> simp [firstUnwrittenDigit, slotWritten, hd, ih]

/-- No source digit is unwritten exactly when every slot named is written (R35, R205). -/
theorem firstUnwritten_eq_none (slots : List Slot) (ks : List Nat) :
    firstUnwritten slots ks = none ↔ ∀ k ∈ ks, slotWritten (slotAt slots k) = true := by
  induction ks with
  | nil => simp [firstUnwritten]
  | cons k ks ih =>
    rw [firstUnwritten]
    cases h : firstUnwrittenDigit 0 (slotAt slots k) with
    | none => simp [ih, (firstUnwrittenDigit_eq_none 0 _).1 h]
    | some j =>
      have : ¬ slotWritten (slotAt slots k) = true := fun hw => by
        rw [(firstUnwrittenDigit_eq_none 0 _).2 hw] at h; exact absurd h (by simp)
      simp [this]

/-- With every source digit written, the sources are the slots' values. -/
theorem sampleSources_written (par : Params) (slots : List Slot) (draws : Nat) (i : Instr)
    (h : firstUnwritten slots (sourceSlots i) = none) :
    sampleSources par slots draws i =
      ⟨i.src1.slots.map fun k => slotValue par (slotAt slots k),
        (optionSlots i.src2).map fun k => slotValue par (slotAt slots k)⟩ := by
  rw [firstUnwritten_eq_none] at h
  simp only [sampleSources, Sources.mk.injEq]
  constructor <;> refine List.map_congr_left fun k hk => sampleSlot_written _ _ _ _ (h k ?_)
  · exact List.mem_append_left _ hk
  · exact List.mem_append_right _ hk

/-- A sampled slot is below `R`. -/
theorem sampleSlot_lt {par : Params} {slots : List Slot} (h : slotFileWf par slots = true) (draws k : Nat) :
    sampleSlot par slots draws k < par.r := by
  by_cases hk : k < slots.length
  · have hw := slotAt_wf h hk
    simp only [slotWf, Bool.and_eq_true, decide_eq_true_eq, List.all_eq_true] at hw
    have hlt : ∀ (j : Nat) (sl : Slot), (∀ d ∈ sl, digitWf par d = true) → ∀ x ∈ sampleDigits par j sl, x < 2 ^ par.w := by
      intro j sl
      induction sl generalizing j with
      | nil => simp [sampleDigits]
      | cons d ds ih =>
        intro hd x hx
        rcases List.mem_cons.1 hx with rfl | hx
        · have := hd d (by simp)
          simp only [digitWf, Bool.and_eq_true, decide_eq_true_eq] at this
          rw [sampleDigit]
          split
          · exact this.1
          · exact Nat.mod_lt _ (by positivity)
        · exact ih (j + 1) (fun y hy => hd y (by simp [hy])) x hx
    have := valueOf_lt (hlt (draws + k * par.n) _ hw.2)
    rwa [sampleDigits_length, hw.1] at this
  · have : slotAt slots k = [] := by rw [slotAt, List.getD_eq_default _ _ (by omega)]
    simp [sampleSlot, this, sampleDigits, valueOf, Params.r]

end Sys2Proof.Machine
end

