-- ==== Sys2Proof/Laws/Completion.lean ====
section
/-! SUPPORT. What a completion can do (R30, R31, R207), said once for every command. -/
namespace Sys2Proof.Machine

variable (i : Instr) (op : Sources → Effect) (s : State)

theorem complete_of_inRange (h : inRange s.par i (s.sourcesOf i) = true) :
    s.complete i op = s.retire i (s.sourcesOf i) (op (s.sourcesOf i)) := if_pos h

theorem complete_of_outOfRange (h : inRange s.par i (s.sourcesOf i) = false) :
    s.complete i op = s.retireUnspecified i (s.sourcesOf i) := if_neg (by simp [h])

/-! ### The frame: a completion writes its slots, CF, the hidden temporaries and the counter of free values only -/

@[simp] theorem complete_par : (s.complete i op).par = s.par := by unfold State.complete; split <;> rfl
@[simp] theorem complete_ill : (s.complete i op).ill = s.ill := by unfold State.complete; split <;> rfl
@[simp] theorem complete_haz : (s.complete i op).haz = s.haz := by unfold State.complete; split <;> rfl
@[simp] theorem complete_ecode : (s.complete i op).ecode = s.ecode := by unfold State.complete; split <;> rfl
@[simp] theorem complete_cmd : (s.complete i op).cmd = s.cmd := by unfold State.complete; split <;> rfl
@[simp] theorem complete_seq : (s.complete i op).seq = .idle := by unfold State.complete; split <;> rfl
@[simp] theorem complete_faults : (s.complete i op).faults = s.faults := by unfold State.complete; split <;> rfl
@[simp] theorem complete_inputs : (s.complete i op).inputs = s.inputs := by unfold State.complete; split <;> rfl
@[simp] theorem complete_readData : (s.complete i op).readData = s.readData := by unfold State.complete; split <;> rfl

@[simp] theorem freeSlots_length (par : Params) (k n : Nat) : (freeSlots par k n).length = n := by simp [freeSlots]

/-- The slots after a completion: a group of the destination's width was written, nothing else. -/
theorem complete_slots (h : ∀ src, (op src).dsts.length = i.dst.group.width) :
    ∃ vs, vs.length = i.dst.group.width ∧ (s.complete i op).slots = writeSlots s.par s.slots i.dst.base.val vs := by
  unfold State.complete
  split
  · exact ⟨_, h _, rfl⟩
  · exact ⟨_, freeSlots_length _ _ _, rfl⟩

/-- Every command answers a next state, the completion of a rule that gives one value per destination slot, and gives CF
only if the command is MP_ADD or MP_SUB (R23, R30, R31). -/
theorem exec_eq_complete : ∃ op : Sources → Effect, exec i s = .next (s.complete i op) ∧
    (∀ src, (op src).dsts.length = i.dst.group.width) ∧
    (i.opc ≠ 0x01 → i.opc ≠ 0x02 → ∀ src, (op src).cf = none) := by
  cases i with
  | mpAdd wd _ _ _ => exact ⟨_, rfl, fun _ => by cases wd <;> rfl, fun h => absurd rfl h⟩
  | mpSub wd _ _ _ => exact ⟨_, rfl, fun _ => by cases wd <;> rfl, fun _ h => absurd rfl h⟩
  | mpSubc _ _ _ _ => exact ⟨_, rfl, fun _ => rfl, fun _ _ _ => rfl⟩
  | mpMul _ _ _ => exact ⟨_, rfl, fun _ => rfl, fun _ _ _ => rfl⟩
  | fpMul _ _ _ => exact ⟨_, rfl, fun _ => rfl, fun _ _ _ => rfl⟩
  | fpSqr _ _ => exact ⟨_, rfl, fun _ => rfl, fun _ _ _ => rfl⟩
  | fpRdc _ _ => exact ⟨_, rfl, fun _ => rfl, fun _ _ _ => rfl⟩
  | fpInv _ _ => exact ⟨_, rfl, fun _ => rfl, fun _ _ _ => rfl⟩
  | fp2Mul _ _ _ => exact ⟨_, rfl, fun _ => rfl, fun _ _ _ => rfl⟩
  | ptDbl _ _ _ _ => exact ⟨_, rfl, fun _ => rfl, fun _ _ _ => rfl⟩
  | iso4Eval _ _ _ => exact ⟨_, rfl, fun _ => rfl, fun _ _ _ => rfl⟩
  | iso3Eval _ _ _ => exact ⟨_, rfl, fun _ => rfl, fun _ _ _ => rfl⟩

/-! ### The range of the sources (R18, R205) -/

theorem firstNotBelow_eq_none {bound k : Nat} {vs : List Nat} :
    firstNotBelow bound k vs = none ↔ ∀ v ∈ vs, v < bound := by
  induction vs generalizing k with
  | nil => simp [firstNotBelow]
  | cons v vs ih =>
    rw [firstNotBelow]
    split
    next h => simp [ih, h]
    next h => simp [h]

theorem firstOverTwoP_eq_none {par : Params} {src : Sources} :
    firstOverTwoP par src = none ↔ (∀ v ∈ src.rs1, v < par.twoP) ∧ ∀ v ∈ src.rs2, v < par.twoP := by
  unfold firstOverTwoP
  split
  next k h =>
    have hn : ¬ ∀ v ∈ src.rs1, v < par.twoP := fun hb => by simp [(firstNotBelow_eq_none (k := 0)).2 hb] at h
    exact ⟨fun h => absurd h (by simp), fun hb => absurd hb.1 hn⟩
  next h =>
    rw [Option.map_eq_none_iff, firstNotBelow_eq_none]
    exact ⟨fun hb => ⟨firstNotBelow_eq_none.1 h, hb⟩, fun hb => hb.2⟩

/-! ### The destination group after a completion (R22, R30) -/

theorem wellFormed_dst {n : Nat} {i : Instr} (h : i.wellFormed n = true) : i.dst.base.val + i.dst.group.width ≤ n := by
  simp only [Instr.wellFormed, Operand.fits, Bool.and_eq_true, decide_eq_true_eq] at h
  exact h.1.1

/-- Slot `j` of a written group holds value `j`, every digit written. -/
theorem slot_of_writeSlots {s t : State} {base j v : Nat} {vs : List Nat} (hp : t.par = s.par)
    (ht : t.slots = writeSlots s.par s.slots base vs) (hb : base + vs.length ≤ s.slots.length) (hj : vs[j]? = some v) :
    t.slot (base + j) = v % s.par.r ∧ slotWritten (slotAt t.slots (base + j)) = true := by
  have hs : slotAt t.slots (base + j) = writtenSlot s.par v := by
    rw [slotAt, ht, List.getD_eq_getElem?_getD, writeSlots_inside s.par s.slots base j v vs hj hb]; rfl
  exact ⟨by rw [State.slot, hs, hp, slotValue_writtenSlot], by rw [hs, slotWritten_writtenSlot]⟩

/-- A completion keeps the slot file in canonical form. -/
theorem complete_wf {s : State} (h : slotFileWf s.par s.slots = true) (i : Instr) (op : Sources → Effect) :
    slotFileWf s.par (s.complete i op).slots = true := by
  unfold State.complete
  split <;> exact writeSlots_wf h _ _

/-! ### The sources a command runs on (R31) -/

theorem sourcesOf_running (src : Sources) (h : s.seq = .running i src) : s.sourcesOf i = src := by
  simp [State.sourcesOf, h]

theorem sourcesOf_idle (h : s.seq = .idle) : s.sourcesOf i = s.sample i := by simp [State.sourcesOf, h]

end Sys2Proof.Machine
end

