-- ==== Sys2Proof/Laws/HostPort.lean ====
section
/-! SUPPORT. What each cell is and what a read or a write of it does, one lemma per cell (R24 to R29, R52 to R57). -/
namespace Sys2Proof.Machine

/-! ### The cell map (R52 to R54) -/

@[simp] theorem cellOf_id (par : Params) : cellOf par 0x0000 = .id := by simp [cellOf]
@[simp] theorem cellOf_param (par : Params) : cellOf par 0x0001 = .param := by simp [cellOf]
@[simp] theorem cellOf_status (par : Params) : cellOf par 0x0002 = .status := by simp [cellOf]
@[simp] theorem cellOf_ctrl (par : Params) : cellOf par 0x0003 = .ctrl := by simp [cellOf]
@[simp] theorem cellOf_cmd (par : Params) : cellOf par 0x0004 = .cmd := by simp [cellOf]

theorem cellOf_reserved {par : Params} {a : CellAddr} (h : 5 ≤ a.toNat)
    (hw : a.toNat < 0x1000 ∨ 0x1000 + par.nslot * par.n ≤ a.toNat) : cellOf par a = .reserved := by
  unfold cellOf windowBase Params.windowSize
  split <;> try omega
  rw [if_neg (by omega)]

/-- Every cell of the slot window is a digit. -/
theorem cellOf_window {par : Params} {a : CellAddr} (h : 0x1000 ≤ a.toNat) (hw : a.toNat < 0x1000 + par.nslot * par.n) :
    ∃ k j, cellOf par a = .digit k j := by
  unfold cellOf windowBase Params.windowSize
  split <;> try omega
  rw [if_pos (by omega)]
  exact ⟨_, _, rfl⟩

/-- The address of a digit is the digit's (R53). -/
theorem cellOf_digitAddr {par : Params} {k j : Nat} (hw : par.nslot * par.n ≤ 0xF000) (hk : k < par.nslot)
    (hj : j < par.n) : cellOf par (digitAddr par k j) = .digit k j := by
  have hmul : (k + 1) * par.n ≤ par.nslot * par.n := Nat.mul_le_mul_right _ hk
  rw [Nat.succ_mul] at hmul
  have ha : (digitAddr par k j).toNat = 0x1000 + k * par.n + j := by
    rw [digitAddr, windowBase, BitVec.toNat_ofNat]; omega
  unfold cellOf windowBase Params.windowSize
  rw [ha]
  split <;> try omega
  rw [if_pos (by omega), show 4096 + k * par.n + j - 4096 = j + par.n * k by rw [Nat.mul_comm par.n]; omega,
    Nat.add_mul_div_left _ _ (by omega), Nat.add_mul_mod_self_left, Nat.div_eq_of_lt hj, Nat.mod_eq_of_lt hj, Nat.zero_add]

/-! ### Reads and writes, cell by cell -/

variable (s : State) (v : BusWord)

theorem perform_read_id : s.perform (.read 0x0000) = s.returns (s.par.coreId.setWidth 64) := by
  simp only [State.perform, State.hostRead, cellOf_id]
theorem perform_read_param : s.perform (.read 0x0001) = s.returns ((paramWord s.par).setWidth 64) := by
  simp only [State.perform, State.hostRead, cellOf_param]
theorem perform_read_status : s.perform (.read 0x0002) = s.returns (s.statusWord.setWidth 64) := by
  simp only [State.perform, State.hostRead, cellOf_status]
theorem perform_read_ctrl : s.perform (.read 0x0003) = s.returns 0 := by
  simp only [State.perform, State.hostRead, cellOf_ctrl]
theorem perform_read_cmd : s.perform (.read 0x0004) = s.returns (s.cmd.setWidth 64) := by
  simp only [State.perform, State.hostRead, cellOf_cmd]
theorem perform_read_digit {a : CellAddr} {k j : Nat} (h : cellOf s.par a = .digit k j) :
    s.perform (.read a) = s.readDigit k j := by
  simp only [State.perform, State.hostRead, h]
theorem perform_read_reserved {a : CellAddr} (h : cellOf s.par a = .reserved) : s.perform (.read a) = s.returns 0 := by
  simp only [State.perform, State.hostRead, h]

/-! A write: the bus carries every bit a cell uses, so what it cuts off has no effect (R51, R55). -/

theorem two_pow_dvd_busWidth {par : Params} {k : Nat} (h : k ≤ par.busWidth) : 2 ^ k ∣ 2 ^ par.busWidth := pow_dvd_pow 2 h

theorem busValue_toNat (par : Params) : (busValue par v).toNat = v.toNat % 2 ^ par.busWidth := by
  rw [busValue, BitVec.toNat_ofNat]
  exact Nat.mod_eq_of_lt ((Nat.mod_le _ _).trans_lt v.isLt)

/-- The low bits of a value, as many as the bus has or fewer, cross the bus. -/
theorem busValue_toNat_mod {par : Params} {k : Nat} (h : k ≤ par.busWidth) :
    (busValue par v).toNat % 2 ^ k = v.toNat % 2 ^ k := by
  rw [busValue_toNat, Nat.mod_mod_of_dvd _ (two_pow_dvd_busWidth h)]

theorem busValue_setWidth (par : Params) : (busValue par v).setWidth 32 = v.setWidth 32 := by
  apply BitVec.eq_of_toNat_eq
  simpa using busValue_toNat_mod v (par := par) (k := 32) (Nat.le_max_left _ _)

theorem busValue_getLsbD {par : Params} {k : Nat} (h : k < 32) : (busValue par v).getLsbD k = v.getLsbD k := by
  have hs := congrArg (BitVec.getLsbD · k) (busValue_setWidth v par)
  simpa [h] using hs

@[simp] theorem hostWrite_busValue (a : CellAddr) : s.hostWrite a (busValue s.par v) = s.hostWrite a v := by
  have h0 : (busValue s.par v).getLsbD 0 = v.getLsbD 0 := busValue_getLsbD v (by decide)
  have h1 : (busValue s.par v).getLsbD 1 = v.getLsbD 1 := busValue_getLsbD v (by decide)
  have h2 : (busValue s.par v).getLsbD 2 = v.getLsbD 2 := busValue_getLsbD v (by decide)
  have hw := busValue_toNat_mod v (par := s.par) (k := s.par.w) (Nat.le_max_right _ _)
  simp only [State.hostWrite, State.clearStatus, State.writeCtrl, State.writeCmd, State.writeDigit, State.setDigit, h0, h1,
    h2, hw, busValue_setWidth]

/-- What a host write does, the bus aside. -/
theorem perform_write (a : CellAddr) : s.perform (.write a v) = s.hostWrite a v := hostWrite_busValue s v a

theorem perform_write_id : s.perform (.write 0x0000 v) = s := by
  simp only [perform_write, State.hostWrite, cellOf_id]
theorem perform_write_param : s.perform (.write 0x0001 v) = s := by
  simp only [perform_write, State.hostWrite, cellOf_param]
theorem perform_write_status : s.perform (.write 0x0002 v) = s.clearStatus v := by
  simp only [perform_write, State.hostWrite, cellOf_status]
theorem perform_write_ctrl : s.perform (.write 0x0003 v) = s.writeCtrl v := by
  simp only [perform_write, State.hostWrite, cellOf_ctrl]
theorem perform_write_cmd : s.perform (.write 0x0004 v) = s.writeCmd v := by
  simp only [perform_write, State.hostWrite, cellOf_cmd]
theorem perform_write_digit {a : CellAddr} {k j : Nat} (h : cellOf s.par a = .digit k j) :
    s.perform (.write a v) = s.writeDigit k j v := by
  simp only [perform_write, State.hostWrite, h]
theorem perform_write_reserved {a : CellAddr} (h : cellOf s.par a = .reserved) : s.perform (.write a v) = s := by
  simp only [perform_write, State.hostWrite, h]

/-! ### Idle and busy (R203) -/

theorem writeCmd_busy (h : s.busy = true) : s.writeCmd v = s.hazard .hazCmd := by simp [State.writeCmd, h]
theorem writeCmd_idle (h : s.busy = false) : s.writeCmd v = s.submit (v.setWidth 32) := by simp [State.writeCmd, h]
theorem writeDigit_busy (k j : Nat) (h : s.busy = true) : s.writeDigit k j v = s.hazard .hazSlot := by
  simp [State.writeDigit, h]
theorem writeDigit_idle (k j : Nat) (h : s.busy = false) : s.writeDigit k j v = s.setDigit k j v := by
  simp [State.writeDigit, h]

/-- A submitted legal word is accepted; an illegal one is refused (R31, R202). -/
theorem submit_of_legal {c : Word} {i : Instr} (h : legality s.par.nslot c = .ok i) : s.submit c = s.accept c i := by
  simp [State.submit, h]
theorem submit_of_illegal {c : Word} {e : IllCode} (h : legality s.par.nslot c = .error e) :
    s.submit c = s.refuse e := by
  simp [State.submit, h]

/-! ### Digits (R21, R57) -/

/-- Digit `j` of slot `k` in a slot file in canonical form. -/
theorem digit_of_wf {s : State} {k j : Nat} (hs : slotFileWf s.par s.slots = true) (hk : k < s.par.nslot)
    (hj : j < s.par.n) : ∃ sl, s.slots[k]? = some sl ∧ sl.length = s.par.n ∧ slotAt s.slots k = sl ∧
      sl[j]? = some (s.digit k j) ∧ digitWf s.par (s.digit k j) = true := by
  have hl := ((slotFileWf_iff _ _).1 hs).1
  have hw := slotAt_wf hs (k := k) (by omega)
  simp only [slotWf, Bool.and_eq_true, decide_eq_true_eq, List.all_eq_true] at hw
  have hd : s.digit k j = (slotAt s.slots k)[j]'(by omega) := List.getD_eq_getElem _ _ _
  refine ⟨slotAt s.slots k, ?_, hw.1, rfl, ?_, ?_⟩
  · rw [slotAt, List.getD_eq_getElem _ _ (by omega), List.getElem?_eq_getElem]
  · rw [hd, List.getElem?_eq_getElem]
  · rw [hd]; exact hw.2 _ (List.getElem_mem _)

/-- Writing a digit sets that digit and no other (R57). -/
theorem setDigit_digit {s : State} {k j : Nat} (hs : slotFileWf s.par s.slots = true) (hk : k < s.par.nslot)
    (hj : j < s.par.n) (v : BusWord) (k' j' : Nat) : (s.setDigit k j v).digit k' j' =
      if k' = k ∧ j' = j then ⟨v.toNat % 2 ^ s.par.w, true⟩ else s.digit k' j' := by
  obtain ⟨sl, h1, h2, -⟩ := digit_of_wf hs hk hj
  have hl := ((slotFileWf_iff _ _).1 hs).1
  simp only [State.digit, State.setDigit, slotAt, List.getD_eq_getElem?_getD]
  by_cases hkk : k' = k
  · subst hkk
    rw [List.getElem?_set_self (by omega), Option.getD_some, h1, Option.getD_some]
    by_cases hjj : j' = j
    · subst hjj
      rw [List.getElem?_set_self (by omega)]; simp
    · rw [List.getElem?_set_ne (by omega)]; simp [hjj]
  · rw [List.getElem?_set_ne (by omega)]; simp [hkk]

end Sys2Proof.Machine
end

