-- ==== Sys2Proof/Laws/PerInstr.lean ====
section
/-! SUPPORT. Facts about every command as syntax, one lemma per constructor. -/
namespace Sys2Proof.Laws.EncodedFields

/-- The fields of the word `assemble` puts together (R80). -/
theorem assemble_fields (opc : Nat) (rd rs1 rs2 : SlotIx) (imm : Fin 256) (h : opc < 64) :
    opcOf (assemble opc rd rs1 rs2 imm) = opc ∧ rdOf (assemble opc rd rs1 rs2 imm) = rd ∧
      rs1Of (assemble opc rd rs1 rs2 imm) = rs1 ∧ rs2Of (assemble opc rd rs1 rs2 imm) = rs2 ∧
      immOf (assemble opc rd rs1 rs2 imm) = imm := by
  have h1 := rd.isLt
  have h2 := rs1.isLt
  have h3 := rs2.isLt
  have h4 := imm.isLt
  simp only [opcOf, rdOf, rs1Of, rs2Of, immOf, assemble, BitVec.toNat_ofNat, Fin.ext_iff]
  refine ⟨?_, ?_, ?_, ?_, ?_⟩ <;> omega

/-- The word of a command carries its opcode and the bases of its operands in their fields (R80, R84, R85). -/
def Statement (i : Instr) : Prop :=
  opcOf (encode i) = i.opc ∧ rdOf (encode i) = i.dst.base ∧ rs1Of (encode i) = i.src1.base ∧
    (∀ o, i.src2 = some o → rs2Of (encode i) = o.base) ∧ (i.src2 = none → rs2Of (encode i) = 0)

theorem opc_lt (i : Instr) : i.opc < 64 := by cases i <;> simp [Instr.opc]

/-- A command that uses all three slot fields. -/
theorem three {i : Instr} {rd rs1 rs2 : SlotIx} {imm : Fin 256} {o : Operand} (he : encode i = assemble i.opc rd rs1 rs2 imm)
    (ho : i.opc < 64) (hd : i.dst.base = rd) (h1 : i.src1.base = rs1) (h2 : i.src2 = some o) (hb : o.base = rs2) :
    Statement i := by
  obtain ⟨a, b, c, d, -⟩ := assemble_fields i.opc rd rs1 rs2 imm ho
  rw [← he] at a b c d
  refine ⟨a, b.trans hd.symm, c.trans h1.symm, fun o' h => ?_, fun h => by simp [h2] at h⟩
  rw [h2, Option.some.injEq] at h
  rw [d, ← hb, h]

/-- A command without a second source. -/
theorem two {i : Instr} {rd rs1 : SlotIx} (he : encode i = assemble i.opc rd rs1 0 0)
    (ho : i.opc < 64) (hd : i.dst.base = rd) (h1 : i.src1.base = rs1) (h2 : i.src2 = none) : Statement i := by
  obtain ⟨a, b, c, d, -⟩ := assemble_fields i.opc rd rs1 0 0 ho
  rw [← he] at a b c d
  exact ⟨a, b.trans hd.symm, c.trans h1.symm, fun o' h => by simp [h2] at h, fun _ => d⟩

theorem mpAdd (wd : Width) (rd rs1 rs2 : SlotIx) : Statement (.mpAdd wd rd rs1 rs2) :=
  three rfl (opc_lt _) rfl rfl rfl rfl
theorem mpSub (wd : Width) (rd rs1 rs2 : SlotIx) : Statement (.mpSub wd rd rs1 rs2) :=
  three rfl (opc_lt _) rfl rfl rfl rfl
theorem mpSubc (sel : Correction) (rd rs1 rs2 : SlotIx) : Statement (.mpSubc sel rd rs1 rs2) :=
  three rfl (opc_lt _) rfl rfl rfl rfl
theorem mpMul (rd rs1 rs2 : SlotIx) : Statement (.mpMul rd rs1 rs2) := three rfl (opc_lt _) rfl rfl rfl rfl
theorem fpMul (rd rs1 rs2 : SlotIx) : Statement (.fpMul rd rs1 rs2) := three rfl (opc_lt _) rfl rfl rfl rfl
theorem fpSqr (rd rs1 : SlotIx) : Statement (.fpSqr rd rs1) := two rfl (opc_lt _) rfl rfl rfl
theorem fpRdc (rd rs1 : SlotIx) : Statement (.fpRdc rd rs1) := two rfl (opc_lt _) rfl rfl rfl
theorem fpInv (rd rs1 : SlotIx) : Statement (.fpInv rd rs1) := two rfl (opc_lt _) rfl rfl rfl
theorem fp2Mul (rd rs1 rs2 : SlotIx) : Statement (.fp2Mul rd rs1 rs2) := three rfl (opc_lt _) rfl rfl rfl rfl
theorem ptDbl (rd rs1 rs2 : SlotIx) (e : Fin 256) : Statement (.ptDbl rd rs1 rs2 e) :=
  three rfl (opc_lt _) rfl rfl rfl rfl
theorem iso4Eval (rd rs1 rs2 : SlotIx) : Statement (.iso4Eval rd rs1 rs2) := three rfl (opc_lt _) rfl rfl rfl rfl
theorem iso3Eval (rd rs1 rs2 : SlotIx) : Statement (.iso3Eval rd rs1 rs2) := three rfl (opc_lt _) rfl rfl rfl rfl

end Sys2Proof.Laws.EncodedFields
end

