-- ==== Sys2Proof/Laws/Reduction.lean ====
section
/-! SUPPORT. The one fact about Montgomery reduction that everything else is derived from: `REDC(T)·R = T + M·p` exactly,
with `M < R` (R120). -/
namespace Sys2Proof.Machine

/-- `negInverse p k` is `−p^(−1)` modulo `2^k`, for odd `p`. -/
theorem negInverse_spec {p : Nat} (hp : p % 2 = 1) (k : Nat) :
    2 ^ k ∣ p * negInverse p k + 1 ∧ negInverse p k < 2 ^ k := by
  induction k with
  | zero => simp [negInverse]
  | succ k ih =>
    obtain ⟨⟨q, hq⟩, hlt⟩ := ih
    have hdiv : (p * negInverse p k + 1) / 2 ^ k = q := by rw [hq]; exact Nat.mul_div_cancel_left _ (by positivity)
    have hx : negInverse p (k + 1) = negInverse p k + q % 2 * 2 ^ k := by rw [negInverse, hdiv]
    have hq2 : q % 2 < 2 := Nat.mod_lt _ (by decide)
    rw [hx]
    refine ⟨?_, ?_⟩
    · have : p * (negInverse p k + q % 2 * 2 ^ k) + 1 = 2 ^ k * (q + p * (q % 2)) := by
        rw [Nat.mul_add, Nat.add_right_comm, hq]; ring
      rw [this, Nat.pow_succ]
      exact Nat.mul_dvd_mul_left _ ⟨(q + p * (q % 2)) / 2, by
        have : (q + p * (q % 2)) % 2 = 0 := by rw [Nat.add_mod, Nat.mul_mod, hp]; omega
        omega⟩
    · have hqle : q % 2 * 2 ^ k ≤ 1 * 2 ^ k := Nat.mul_le_mul_right _ (by omega)
      rw [Nat.pow_succ]
      omega

theorem montgomeryFactor_lt (par : Params) (t : Nat) : montgomeryFactor par t < par.r :=
  Nat.mod_lt _ (by unfold Params.r; positivity)

/-- The division by `R` is exact (R120). -/
theorem redc_mul_r {par : Params} (hp : par.p % 2 = 1) (t : Nat) :
    redc par t * par.r = t + montgomeryFactor par t * par.p := by
  obtain ⟨⟨q, hq⟩, -⟩ := negInverse_spec hp (par.n * par.w)
  refine Nat.div_mul_cancel ?_
  have h : t * (par.p * negInverse par.p (par.n * par.w) + 1) ≡ t + montgomeryFactor par t * par.p [MOD par.r] := by
    have := (Nat.mod_modEq (t * negInverse par.p (par.n * par.w)) par.r).symm.mul_right par.p |>.add_left t
    unfold montgomeryFactor
    calc t * (par.p * negInverse par.p (par.n * par.w) + 1)
        = t + t * negInverse par.p (par.n * par.w) * par.p := by ring
      _ ≡ _ [MOD par.r] := this
  refine (Nat.modEq_zero_iff_dvd.1 (h.symm.trans ?_))
  rw [hq]
  exact Nat.modEq_zero_iff_dvd.2 ⟨t * q, by unfold Params.r; ring⟩

end Sys2Proof.Machine
end

