-- ==== Sys2Proof/Laws/Step.lean ====
section
/-! SUPPORT. What a host action and a step can do, said once (R31, R55 to R58, R68, R204). -/
namespace Sys2Proof.Machine

theorem busy_eq_false (s : State) : s.busy = false ↔ s.seq = .idle := by
  unfold State.busy; split <;> simp_all

/-- What a host read can do: return a value; or return a free value, and then record an unwritten digit if idle. -/
theorem hostRead_cases (a : CellAddr) (s : State) :
    (∃ v, s.hostRead a = s.returns v) ∨ s.hostRead a = s.returnsFree ∨
      (s.seq = .idle ∧ ∃ k j, s.hostRead a =
        { s.returnsFree with faults := addFault (.unwrittenRead k j) s.faults }) := by
  unfold State.hostRead
  split
  case h_6 =>
    unfold State.readDigit
    split
    · exact .inr (.inl rfl)
    split
    · exact .inl ⟨_, rfl⟩
    · exact .inr (.inr ⟨(busy_eq_false s).1 (by simp_all), _, _, rfl⟩)
  all_goals exact .inl ⟨_, rfl⟩

/-- What a host write can do: nothing; clear STATUS bits; be dropped as a hazard while busy; or, while idle, start a wipe,
set a digit, or submit a command word. -/
theorem hostWrite_cases (a : CellAddr) (v : BusWord) (s : State) :
    s.hostWrite a v = s ∨ s.hostWrite a v = s.clearStatus v ∨
      (s.seq ≠ .idle ∧ ∃ e, s.hostWrite a v = s.hazard e) ∨
      (s.seq = .idle ∧ (s.hostWrite a v = s.wipeStart ∨ (∃ k j, s.hostWrite a v = s.setDigit k j v) ∨
        s.hostWrite a v = s.submit (v.setWidth 32))) := by
  have hb : s.busy = true → s.seq ≠ .idle := fun h hi => by simp [(busy_eq_false s).2 hi] at h
  have hi : ¬ s.busy = true → s.seq = .idle := fun h => (busy_eq_false s).1 (by simpa using h)
  unfold State.hostWrite
  split
  case h_3 => exact .inr (.inl rfl)
  case h_4 =>
    unfold State.writeCtrl
    split
    · split
      next h => exact .inr (.inr (.inl ⟨hb h, _, rfl⟩))
      next h => exact .inr (.inr (.inr ⟨hi h, .inl rfl⟩))
    · exact .inl rfl
  case h_5 =>
    unfold State.writeCmd
    split
    next h => exact .inr (.inr (.inl ⟨hb h, _, rfl⟩))
    next h => exact .inr (.inr (.inr ⟨hi h, .inr (.inr rfl)⟩))
  case h_6 =>
    unfold State.writeDigit
    split
    next h => exact .inr (.inr (.inl ⟨hb h, _, rfl⟩))
    next h => exact .inr (.inr (.inr ⟨hi h, .inr (.inl ⟨_, _, rfl⟩)⟩))
  all_goals exact .inl rfl

/-- What a submission can do: accept the command the word decodes to, well formed, or refuse the word (R31, R202). -/
theorem submit_cases (c : Word) (s : State) :
    (∃ i, decode c = .ok i ∧ i.wellFormed s.par.nslot = true ∧ s.submit c = s.accept c i) ∨
      (∃ e, legality s.par.nslot c = .error e ∧ s.submit c = s.refuse e) := by
  unfold State.submit
  cases h : legality s.par.nslot c with
  | error e => exact .inr ⟨e, rfl, rfl⟩
  | ok i =>
    unfold legality at h
    split at h
    · exact absurd h (by simp)
    next j hj =>
      split at h
      next hw => exact .inl ⟨i, by simp_all, by simp_all, rfl⟩
      next => exact absurd h (by simp)

/-- What the sequencer's step can do (R31, R232). -/
theorem sequencerStep_cases (s : State) :
    (s.seq = .idle ∧ sequencerStep s = .next s) ∨
      (∃ i src, s.seq = .running i src ∧ sequencerStep s = exec i s) ∨
      (s.seq = .wiping ∧ sequencerStep s = .next s.wipeComplete) := by
  unfold sequencerStep
  split
  next h => exact .inl ⟨h, rfl⟩
  next i src h => exact .inr (.inl ⟨i, src, h, rfl⟩)
  next h => exact .inr (.inr ⟨h, rfl⟩)

/-- What a step can do: the sequencer's step, or the host's next action. -/
theorem step_cases (s : State) :
    (step s = sequencerStep s ∧ (s.inputs = [] ∨ ∃ a rest, s.inputs = a :: rest ∧ s.seq ≠ .idle ∧ a.overtakes = false)) ∨
      (∃ a rest, s.inputs = a :: rest ∧ (s.seq = .idle ∨ a.overtakes = true) ∧
        step s = .next (({ s with inputs := rest } : State).perform a.act)) := by
  unfold step
  split
  next h => exact .inl ⟨rfl, .inl h⟩
  next a rest h =>
    split
    next hb =>
      simp only [Bool.and_eq_true, Bool.not_eq_true'] at hb
      exact .inl ⟨rfl, .inr ⟨a, rest, h, fun hi => by simp [(busy_eq_false s).2 hi] at hb, hb.2⟩⟩
    next hb =>
      refine .inr ⟨a, rest, h, ?_, rfl⟩
      cases ho : a.overtakes
      · exact .inl ((busy_eq_false s).1 (by simpa [ho] using hb))
      · exact .inr rfl

end Sys2Proof.Machine
end

