-- ==== Sys2Proof/Tests/Slice0.lean ====
section
/-! SUPPORT. Tests of the model against the spec's own words and vectors (95_test_vectors.md), the smoke test of
WellFormed, and a witness for the hypotheses of every obligation that has some. -/
namespace Sys2Proof.Tests

open Sys2Proof.Machine Sys2Proof.Safety Sys2Proof.Claims

/-- The reset state of TOY with some slots written, `(slot, value)`. -/
def load (xs : List (Nat × Nat)) : State :=
  xs.foldl (fun s x => { s with slots := s.slots.set x.1 (writtenSlot s.par x.2) }) State.reset

/-- The state after the step that runs a command word on some slots. -/
def afterStep (xs : List (Nat × Nat)) (w : Nat) : Option State :=
  match step ((load xs).withFetchWord 32 w) with
  | .next t => some t
  | .fault _ => none
  | .refused _ => none

/-- Some slots and CF after the step that runs a command word. -/
def result (xs : List (Nat × Nat)) (w : Nat) (ks : List Nat) : Option (List Nat × Bool) :=
  (afterStep xs w).map fun t => (ks.map t.slot, t.cf)

/-! ### WellFormed refuses a group that runs past the slot file (R88, code 4) -/

theorem test_wellFormed_accepts_top : (Instr.mpMul 62 63 63).wellFormed 64 = true := by decide
theorem test_wellFormed_refuses_dst : (Instr.mpMul 63 0 1).wellFormed 64 = false := by decide
theorem test_wellFormed_refuses_src1 : (Instr.fpRdc 0 63).wellFormed 64 = false := by decide
theorem test_wellFormed_refuses_src2 : (Instr.iso4Eval 0 4 59).wellFormed 64 = false := by decide
theorem test_wellFormed_small_file : (Instr.fpSqr 16 0).wellFormed 16 = false := by decide

/-! ### Decoding: words written bit by bit, OPC RD RS1 RS2 IMM8 (R80, R84) -/

theorem test_decode_mpAdd : decode 0b000001_001000_000100_000110_00000001 = .ok (.mpAdd .double 8 4 6) := by decide
theorem test_decode_mpSub : decode 0b000010_000010_000000_000001_00000000 = .ok (.mpSub .single 2 0 1) := by decide
theorem test_decode_mpSubc : decode 0b000011_001010_000100_000001_00000001 = .ok (.mpSubc .fourP 10 4 1) := by decide
theorem test_decode_mpMul : decode 0b000100_111110_000000_000001_00000000 = .ok (.mpMul 62 0 1) := by decide
theorem test_decode_fpMul : decode 0b000101_000100_000000_000010_00000000 = .ok (.fpMul 4 0 2) := by decide
theorem test_decode_fpSqr : decode 0b000110_001000_000100_000000_00000000 = .ok (.fpSqr 8 4) := by decide
theorem test_decode_fpRdc : decode 0b000111_000000_111110_000000_00000000 = .ok (.fpRdc 0 62) := by decide
theorem test_decode_fpInv : decode 0b001000_000101_000100_000000_00000000 = .ok (.fpInv 5 4) := by decide
theorem test_decode_fp2Mul : decode 0b001001_001010_000100_000110_00000000 = .ok (.fp2Mul 10 4 6) := by decide
theorem test_decode_ptDbl : decode 0b001010_000000_000100_001000_11111111 = .ok (.ptDbl 0 4 8 255) := by decide
theorem test_decode_iso4Eval : decode 0b001011_010000_000000_011000_00000000 = .ok (.iso4Eval 16 0 24) := by decide
theorem test_decode_iso3Eval : decode 0b001100_000000_000100_111100_00000000 = .ok (.iso3Eval 0 4 60) := by decide

/-- Words of 95_test_vectors.md, section L2.5, refused each with its code. -/
theorem test_legality_refuses :
    legality 64 0x2C013B00 = .error .illRange ∧ legality 64 0x1C0FC000 = .error .illRange ∧
    legality 64 0x2BD10800 = .error .illRange ∧ legality 64 0x07F00101 = .error .illRange ∧
    legality 64 0x04004202 = .error .illImm ∧ legality 64 0x04000081 = .error .illImm ∧
    legality 64 0x14004201 = .error .illZero ∧ legality 64 0x20004200 = .error .illZero ∧
    legality 64 0x34000000 = .error .illOpc ∧ legality 64 0xFFFFFFFF = .error .illOpc := by decide

/-- Words of the same section that are legal up to the last slot. -/
theorem test_legality_accepts :
    legality 64 0x2C013A00 = .ok (.iso4Eval 0 4 58) ∧ legality 64 0x2BC10800 = .ok (.ptDbl 60 4 8 0) ∧
    legality 64 0x07F00100 = .ok (.mpAdd .single 63 0 1) ∧ legality 64 0x27E00200 = .ok (.fp2Mul 62 0 2) := by decide

/-- The words the assembler gives in the programs of section L3. -/
theorem test_encode_program_words :
    encode (.fpMul 4 0 2) = 0x14400200 ∧ encode (.mpAdd .double 8 4 6) = 0x04810601 ∧
    encode (.ptDbl 46 30 42 1) = 0x2AE7AA01 ∧ encode (.fpInv 10 11) = 0x20A2C000 := by decide

theorem test_assemblerText : assemblerText (.mpAdd .double 8 4 6) = "MP_ADD.DW s8, s4, s6" := by decide

/-! ### One step each, vectors of 95_test_vectors.md sections L2.1 to L2.4 -/

theorem test_mpAdd_carry : result [(0, 0xFFFF), (1, 0x0001)] 0x04200100 [2] = some ([0x0000], true) := by decide
theorem test_mpAdd_double : result [(4, 0xFFFF), (5, 0x0001), (6, 0x0001), (7, 0)] 0x04810601 [8, 9] =
    some ([0x0000, 0x0002], false) := by decide
theorem test_mpSub_borrow : result [(0, 0x0003), (1, 0x0005)] 0x08200100 [2] = some ([0xFFFE], true) := by decide
theorem test_mpSub_double : result [(4, 0), (5, 0x0001), (6, 0x0001), (7, 0)] 0x08810601 [8, 9] =
    some ([0xFFFF, 0x0000], false) := by decide
theorem test_mpSubc_twoP : result [(0, 0x0000), (1, 0x35FD)] 0x0C200100 [2] = some ([0x0001], false) := by decide
theorem test_mpSubc_fourP : result [(0, 0x35FD), (1, 0x0000)] 0x0C200101 [2] = some ([0xA1F9], false) := by decide
theorem test_mpMul_top : result [(0, 0xFFFF), (1, 0xFFFF)] 0x10200100 [2, 3] = some ([0x0001, 0xFFFE], false) := by decide
theorem test_mpMul_asymmetric : result [(0, 0x1234), (1, 0x5678)] 0x10200100 [2, 3] =
    some ([0x0060, 0x0626], false) := by decide
theorem test_fpMul_forms : result [(0, 0x0C1C), (2, 0x0B2F)] 0x14400200 [4] = some ([0x068E], false) := by decide
theorem test_fpMul_edge : result [(0, 0x1AFF), (2, 0x0001)] 0x14400200 [4] = some ([0x1AFF], false) := by decide
theorem test_fpSqr_largest : result [(4, 0x35FD)] 0x18810000 [8] = some ([0x1DD8], false) := by decide
theorem test_fpSqr_zero : result [(4, 0)] 0x18810000 [8] = some ([0], false) := by decide
theorem test_fpRdc_largest : result [(62, 0xFFFF), (63, 0x1AFE)] 0x1C0F8000 [0] = some ([0x3325], false) := by decide
theorem test_fpRdc_halves : result [(62, 0x5678), (63, 0x1234)] 0x1C0F8000 [0] = some ([0x2D0A], false) := by decide
theorem test_fpInv_three : result [(4, 0x0C1C)] 0x20510000 [5] = some ([0x0D58], false) := by decide
theorem test_fpInv_zero : result [(4, 0x1AFF)] 0x20510000 [5] = some ([0x1AFF], false) := by decide
theorem test_fp2Mul_product : result [(4, 0x0D09), (5, 0x1A12), (6, 0x0C1C), (7, 0x1925)] 0x24A10600 [10, 11] =
    some ([0x2ACF, 0x165E], false) := by decide
theorem test_fp2Mul_negative : result [(4, 0), (5, 0x35FD), (6, 0), (7, 0x35FD)] 0x24A10600 [10, 11] =
    some ([0x1826, 0x0000], false) := by decide

/-- The curve pair (A24plus, C24) of section L2.4 at s20. -/
def curvePair : List (Nat × Nat) := [(20, 0x174B), (21, 0), (22, 0x1925), (23, 0)]

/-- The coefficients K4 of section L2.4 at s24. -/
def k4Coefficients : List (Nat × Nat) := [(24, 0x3424), (25, 0), (26, 0x0900), (27, 0), (28, 0x2312), (29, 0)]

/-- The point Q of section L2.4 at s4. -/
def pointQ : List (Nat × Nat) := [(4, 0x03D7), (5, 0x0998), (6, 0x0D09), (7, 0)]

/-- The point P4 of section L2.4 at s0. -/
def pointP4 : List (Nat × Nat) := [(0, 0x1609), (1, 0), (2, 0x0D09), (3, 0)]

theorem test_ptDbl_once : result (pointQ ++ curvePair) 0x2A211401 [34, 35, 36, 37] =
    some ([0x0E5B, 0x0964, 0x0B97, 0x16AC], false) := by decide
theorem test_ptDbl_twice : result (pointP4 ++ curvePair) 0x28C01402 [12, 13, 14, 15] =
    some ([0x1457, 0x0000, 0x1AFF, 0x0000], false) := by decide
theorem test_iso4Eval_point : result (pointQ ++ k4Coefficients) 0x2DE11800 [30, 31, 32, 33] =
    some ([0x26F9, 0x0B65, 0x0A7D, 0x1569], false) := by decide
theorem test_iso4Eval_kernel : result (pointP4 ++ k4Coefficients) 0x2D001800 [16, 17, 18, 19] =
    some ([0x1030, 0x0000, 0x0000, 0x0000], false) := by decide
theorem test_iso3Eval_point : result (pointQ ++ [(60, 0x2CF7), (61, 0), (62, 0x110B), (63, 0)]) 0x30013C00 [0, 1, 2, 3] =
    some ([0x3136, 0x0A9C, 0x198C, 0x09A0], false) := by decide

/-- The field helpers of section L2.2, and FP2SQR of section L2.3. -/
theorem test_field_helpers : fpAdd Params.toy 0x1AFE 0x1AFE = 0x35FC ∧ fpSub Params.toy 0 1 = 0x35FD ∧
    fp2Sqr Params.toy ⟨0x0D09, 0x1A12⟩ = ⟨0x0EE3, 0x1925⟩ := by decide

/-- The isogeny coefficients of section L2.4. -/
theorem test_isogeny_coefficients :
    get4Isog Params.toy ⟨⟨0x1609, 0⟩, ⟨0x0D09, 0⟩⟩ =
      ((⟨0x3424, 0⟩, ⟨0x0900, 0⟩, ⟨0x2312, 0⟩), ⟨0x0BD5, 0⟩, ⟨0x1925, 0⟩) ∧
    get3Isog Params.toy ⟨⟨0x0402, 0⟩, ⟨0x0D09, 0⟩⟩ =
      ((⟨0x2CF7, 0⟩, ⟨0x110B, 0⟩), ⟨0x0BB0, 0⟩, ⟨0x1C8D, 0⟩) := by decide

/-- The default chain has 21 steps for TOY (section L2.2). -/
theorem test_default_chain_steps : Params.toy.chain.length = 21 := by decide

/-! ### The host port -/

/-- Program P6: a refused word leaves STATUS 0x12 and the last accepted word in CMD. -/
theorem test_refused_status : ((State.reset.perform (.write 0x0004 0)).statusWord, State.reset.cmd) = (0x12, 0) := by
  decide
/-- Program P6: three refused words show the last code. -/
theorem test_refused_last_code : (((State.reset.perform (.write 0x0004 0x18A10100)).perform
    (.write 0x0004 0x13F00100)).perform (.write 0x0004 0x0CA00102)).statusWord = 0x32 := by decide
/-- Section L2.5: a CMD write while a command runs leaves STATUS 0x55. -/
theorem test_busy_status : (((load [(4, 1)]).withFetchWord 32 0x18810000).perform (.write 0x0004 0)).statusWord = 0x55 := by
  decide

/-! ### Witnesses: for every obligation with hypotheses, states and operands that meet them together -/

/-- TOY is an admitted parameter set (R10). -/
theorem toy_admitted : Params.toy.admitted :=
  ⟨by decide, by decide, by decide, by decide, by decide, by norm_num [Params.toy], by decide, by decide, by decide,
    by decide, by decide, by decide, by decide, by decide⟩

/-- An idle core with some slots written and what the host still does. -/
def idleWith (xs : List (Nat × Nat)) (as : List Arrival) : State := { load xs with inputs := as }

/-- A core that runs `FP_SQR s8, s4` on the largest source, with what the host still does. -/
def busyWith (as : List Arrival) : State := { (load [(4, 0x35FD)]).withFetchWord 32 0x18810000 with inputs := as }

/-- The command `busyWith` runs. -/
def sqr84 : Instr := .fpSqr 8 4

theorem busyWith_seq (as : List Arrival) : (busyWith as).seq = .running sqr84 ⟨[0x35FD], []⟩ := by
  change ((load [(4, 0x35FD)]).withFetchWord 32 0x18810000).seq = _
  decide

theorem busyWith_inv (as : List Arrival) : Inv (busyWith as) := by
  refine ⟨?_, ?_, ?_, ?_⟩
  · change slotFileWf Params.toy ((load [(4, 0x35FD)]).withFetchWord 32 0x18810000).slots = true
    decide
  · intro i src h
    rw [busyWith_seq] at h
    injection h with hi hsrc
    subst hi hsrc
    have hp : (busyWith as).par = Params.toy := by
      change ((load [(4, 0x35FD)]).withFetchWord 32 0x18810000).par = _
      decide
    rw [hp]
    refine ⟨?_, by decide, ⟨by decide, by decide⟩, ⟨by decide, by decide⟩, fun _ => ?_⟩
    · change decode ((load [(4, 0x35FD)]).withFetchWord 32 0x18810000).cmd = _
      decide
    · change _ = ((load [(4, 0x35FD)]).withFetchWord 32 0x18810000).sample sqr84
      decide
  · have hf : (busyWith as).faults = [] := by
      change ((load [(4, 0x35FD)]).withFetchWord 32 0x18810000).faults = []
      decide
    refine ⟨?_, ?_, ?_, ?_, ?_⟩
    · exact ⟨fun _ => ⟨rfl, rfl⟩, fun _ => rfl⟩
    · intro h; exact absurd h (by change ¬ false = true; decide)
    · intro h; exact absurd h (by change ¬ false = true; decide)
    · intro e h; exact absurd h (by change ¬ ECode.none = _; simp)
    · intro e h; exact absurd h (by change ¬ ECode.none = _; simp)
  · change ((load [(4, 0x35FD)]).withFetchWord 32 0x18810000).faults.Nodup
    decide

/-- An idle core without an error and with an empty record meets the invariant. -/
theorem clean_inv {s : State} (hs : slotFileWf s.par s.slots = true) (hq : s.seq = .idle) (hi : s.ill = false)
    (hh : s.haz = false) (he : s.ecode = .none) (hf : s.faults = []) : Inv s :=
  ⟨hs, fun _ _ h => by simp [hq] at h,
    ⟨by simp [hi, hh, he], by simp [hi], by simp [hh], by simp [he], by simp [he]⟩, by simp [hf]⟩

theorem reset_inv : Inv State.reset := clean_inv (by decide) rfl rfl rfl rfl rfl

/-- Host actions for the witnesses: a CMD write of `FP_SQR s8, s4`, a STATUS read that overtakes, one that waits. -/
def submitSqr : Arrival := ⟨.write 0x0004 0x18810000, false⟩
def statusNow : Arrival := ⟨.read 0x0002, true⟩
def statusLater : Arrival := ⟨.read 0x0002, false⟩

theorem witness_EncodeDecodeRoundTrip : decode 0x30013C00 = .ok (.iso3Eval 0 4 60) := by decide

/-- Both ends of each reserved range, and both ends of the map. -/
theorem witness_ReservedOpcodesAreRefused :
    State.reset.seq = .idle ∧ opcOf ((0x00000000 : BusWord).setWidth 32) = 0x00 ∧
    opcOf ((0x34000000 : BusWord).setWidth 32) = 0x0D ∧ opcOf ((0xFC000000 : BusWord).setWidth 32) = 0x3F ∧
    legality 64 0x07F00100 = .ok (.mpAdd .single 63 0 1) ∧
    legality 64 0x30013C00 = .ok (.iso3Eval 0 4 60) := by decide

theorem witness_StepRunsTheDecodedCommand :
    Inv (busyWith [statusLater]) ∧ (busyWith [statusLater]).seq = .running sqr84 ⟨[0x35FD], []⟩ ∧
    waits (busyWith [statusLater]).inputs ∧ Inv (busyWith []) ∧ waits (busyWith []).inputs ∧
    legality State.reset.par.nslot (BitVec.ofNat 32 0x14400200) = .ok (.fpMul 4 0 2) :=
  ⟨busyWith_inv _, busyWith_seq _, rfl, busyWith_inv _, trivial, by decide⟩

theorem witness_StepPerformsTheHostAction :
    (idleWith [] [statusLater]).inputs = [statusLater] ∧ (idleWith [] [statusLater]).seq = .idle ∧
    (busyWith [statusNow]).inputs = [statusNow] ∧ statusNow.overtakes = true ∧
    State.reset.inputs = [] ∧ State.reset.seq = .idle := by decide

theorem witness_AcceptanceSamplesTheSources :
    (idleWith [(4, 0x35FD)] [submitSqr]).seq = .idle ∧ (idleWith [(4, 0x35FD)] [submitSqr]).inputs = [submitSqr] ∧
    legality (idleWith [(4, 0x35FD)] [submitSqr]).par.nslot ((0x18810000 : BusWord).setWidth 32) = .ok sqr84 ∧
    (∀ k ∈ sqr84.src1.slots ++ optionSlots sqr84.src2,
      slotWritten (slotAt (idleWith [(4, 0x35FD)] [submitSqr]).slots k) = true) := by decide

/-- The clause of an unwritten source, at the second source of FP_MUL with digit 1 the first unwritten one. -/
theorem witness_AcceptanceRecordsModelFaults_unwritten :
    let s := (load [(0, 1)]).setDigit 63 0 7
    sourceSlots (.fpMul 4 0 63) = [0] ++ 63 :: [] ∧ (∀ x ∈ [0], slotWritten (slotAt s.slots x) = true) ∧
    1 < (slotAt s.slots 63).length ∧ (s.digit 63 1).written = false ∧
    (∀ j' < 1, (s.digit 63 j').written = true) := by decide

/-- The clauses of written sources: at `2p − 1` in range, at `2p` and for FP_RDC at `p·R` out of it. -/
theorem witness_AcceptanceRecordsModelFaults_range :
    let s := load [(0, 0x35FD), (1, 0x35FE), (2, 0), (3, 0x1AFF)]
    (∀ x ∈ sourceSlots (.fpMul 4 0 1), slotWritten (slotAt s.slots x) = true) ∧
    violation s.par (.fpMul 4 0 0) (s.sample (.fpMul 4 0 0)) = none ∧
    violation s.par (.fpMul 4 0 1) (s.sample (.fpMul 4 0 1)) = some (.rs2, 0) ∧
    violation s.par (.fpRdc 4 2) (s.sample (.fpRdc 4 2)) = some (.rs1, 0) := by decide

theorem requires_at_bound : Requires Params.toy (.fpMul 4 0 1) ⟨[0x35FD], [0x35FD]⟩ := by
  simp [Requires, Instr.opc, Below, Params.toy]

theorem not_requires_past_bound : ¬ Requires Params.toy (.fpMul 4 0 1) ⟨[0x35FD], [0x35FE]⟩ := by
  simp [Requires, Instr.opc, Below, Params.toy]

theorem witness_CommandIsAtomicDespiteTheHost :
    let mid : List Arrival := [statusNow, ⟨.write 0x1008 1, true⟩]
    let s := idleWith [(4, 0x35FD)] (submitSqr :: (mid ++ [statusLater]))
    Inv s ∧ s.seq = .idle ∧ s.inputs = submitSqr :: (mid ++ [statusLater]) ∧
    legality s.par.nslot ((0x18810000 : BusWord).setWidth 32) = .ok sqr84 ∧ s.acceptFault sqr84 = none ∧
    (∀ a ∈ mid, a.overtakes = true ∧ a.act ≠ .reset) ∧ statusLater.overtakes = false ∧
    (exec sqr84 s = .next (s.retire sqr84 ⟨[0x35FD], []⟩ ⟨[0x1DD8], none, none⟩)) := by
  refine ⟨clean_inv (by decide) (by decide) (by decide) (by decide) (by decide) (by decide), by decide, by decide,
    by decide, by decide, by decide, by decide, ?_⟩
  rfl

theorem witness_StepKeepsTheMachineInvariant :
    Inv (busyWith []) ∧ Inv State.reset ∧ step State.reset = .next State.reset :=
  ⟨busyWith_inv _, reset_inv, rfl⟩

theorem witness_FaultRecordOnlyGrows :
    State.reset.faults = [] ∧ step State.reset = .next State.reset ∧
    Fault.illegalCommand .illOpc ∈ (State.reset.perform (.write 0x0004 0)).faults ∧
    step (State.reset.perform (.write 0x0004 0)) = .next (State.reset.perform (.write 0x0004 0)) ∧
    (State.reset.perform (.write 0x0004 0)).faults ≠ [] := by
  refine ⟨rfl, rfl, by decide, rfl, by decide⟩

theorem witness_BusyPeriodEnds : (busyWith []).busy = true ∧ (busyWith [statusNow]).busy = true := by decide

theorem witness_BothOrdersOfReadAndCompletion :
    (busyWith [statusNow]).busy = true ∧ (busyWith [statusNow]).inputs = [statusNow] ∧
    (busyWith [statusLater]).busy = true ∧ (busyWith [statusLater]).inputs = [statusLater] := by decide

theorem witness_FirstStatusReadAfterACommand :
    (idleWith [(4, 1)] [submitSqr, statusNow]).seq = .idle ∧
    (idleWith [(4, 1)] [submitSqr, statusNow]).inputs = submitSqr :: statusNow :: [] ∧
    legality 64 ((0x18810000 : BusWord).setWidth 32) = .ok sqr84 ∧
    legality 64 ((0x18810100 : BusWord).setWidth 32) = .error .illZero := by decide

/-- Ready with every group at the top of the slot file; the last slot inside the group and the last one below it. -/
theorem witness_WrittenCellsDependOnTheCommandOnly :
    let i : Instr := .mpMul 62 63 63
    slotFileWf State.reset.par State.reset.slots = true ∧ i.wellFormed State.reset.par.nslot = true ∧
    63 < State.reset.par.nslot ∧ 1 < State.reset.par.n ∧
    (i.dst.base.val ≤ 63 ∧ 63 < i.dst.base.val + i.dst.group.width) ∧
    ¬ (i.dst.base.val ≤ 61 ∧ 61 < i.dst.base.val + i.dst.group.width) := by decide

theorem witness_FinalRunShowsNoError : Inv State.reset ∧ final State.reset :=
  ⟨reset_inv, ⟨rfl, rfl⟩, rfl⟩

/-- One word for each code. -/
theorem witness_IllegalWordIsRefused :
    (idleWith [] [⟨.write 0x0004 0, false⟩]).seq = .idle ∧
    (idleWith [] [⟨.write 0x0004 0, false⟩]).inputs = [⟨.write 0x0004 0, false⟩] ∧
    legality 64 ((0x00000000 : BusWord).setWidth 32) = .error .illOpc ∧
    legality 64 ((0x18A10100 : BusWord).setWidth 32) = .error .illZero ∧
    legality 64 ((0x0CA00102 : BusWord).setWidth 32) = .error .illImm ∧
    legality 64 ((0x13F00100 : BusWord).setWidth 32) = .error .illRange := by decide

/-- The ends of the slot window and of the reserved ranges of TOY (R53, R54). -/
theorem witness_window_and_reserved_ends :
    (0x1000 ≤ (0x1000 : CellAddr).toNat ∧ (0x107F : CellAddr).toNat < 0x1000 + 64 * 2) ∧
    5 ≤ (0x0005 : CellAddr).toNat ∧ (0x0FFF : CellAddr).toNat < 0x1000 ∧
    0x1000 + 64 * 2 ≤ (0x1080 : CellAddr).toNat ∧ 0x1000 + 64 * 2 ≤ (0xFFFF : CellAddr).toNat ∧
    Params.toy.nslot * Params.toy.n ≤ 0xF000 ∧ Params.toy.nslot = 64 ∧ Params.toy.n = 2 := by decide

/-- The cells at the ends of the map of TOY, by the model. -/
theorem test_cell_map_ends :
    cellOf Params.toy 0x0005 = .reserved ∧ cellOf Params.toy 0x0FFF = .reserved ∧
    cellOf Params.toy 0x1000 = .digit 0 0 ∧ cellOf Params.toy 0x107F = .digit 63 1 ∧
    cellOf Params.toy 0x1080 = .reserved ∧ cellOf Params.toy 0xFFFF = .reserved ∧
    cellOf Params.toy 0x1003 = .digit 1 1 := by decide

/-- Values that agree on TOY's 32-bit bus, and values that agree on an 8-bit digit, at the bit just above. -/
theorem witness_HostBusCarriesEveryCell :
    Params.toy.busWidth = 32 ∧ (cellOf Params.toy 0x0004).width Params.toy = 32 ∧
    (cellOf Params.toy 0x107F).width Params.toy = 8 ∧
    (0x118810000 : BusWord).toNat % 2 ^ 32 = (0x18810000 : BusWord).toNat % 2 ^ 32 ∧
    (0x1FF : BusWord).toNat % 2 ^ 8 = (0xFF : BusWord).toNat % 2 ^ 8 ∧
    slotFileWf State.reset.par State.reset.slots = true := by decide

/-- A bit above TOY's 32-bit bus is not carried. -/
theorem test_busValue_cuts : busValue Params.toy 0x1FFFFFFFF = 0xFFFFFFFF := by decide

theorem witness_BusyWritesAreDropped :
    (busyWith []).busy = true ∧ (1 : BusWord).getLsbD 0 = true ∧ (0 : BusWord).getLsbD 0 = false := by decide

theorem witness_OutOfRangeCommandCompletes :
    let s := load [(0, 0x35FD), (1, 0x35FE)]
    Ready s (.fpMul 63 0 1) ∧ ¬ Requires s.par (.fpMul 63 0 1) (s.sourcesOf (.fpMul 63 0 1)) := by
  refine ⟨⟨by decide, by decide⟩, ?_⟩
  rw [show (load [(0, 0x35FD), (1, 0x35FE)]).sourcesOf (.fpMul 63 0 1) = ⟨[0x35FD], [0x35FE]⟩ by decide]
  exact not_requires_past_bound

theorem witness_IdAndParamAreHardwired : State.reset.par.admitted := toy_admitted

theorem witness_CtrlAndCmdRegisters :
    State.reset.seq = .idle ∧ (busyWith []).seq ≠ .idle ∧ (1 : BusWord).getLsbD 0 = true ∧
    (0xFFFFFFFFFFFFFFFE : BusWord).getLsbD 0 = false ∧
    legality 64 ((0x18810000 : BusWord).setWidth 32) = .ok sqr84 ∧
    legality 64 ((0x34000000 : BusWord).setWidth 32) = .error .illOpc := by decide

theorem witness_SlotCells :
    State.reset.par.nslot * State.reset.par.n ≤ 0xF000 ∧ State.reset.par.w ≤ 64 ∧
    slotFileWf State.reset.par State.reset.slots = true ∧ 63 < State.reset.par.nslot ∧ 1 < State.reset.par.n ∧
    State.reset.seq = .idle ∧ (State.reset.digit 63 1).written = false ∧
    ((load [(63, 0x8000)]).digit 63 1).written = true ∧ (busyWith []).seq ≠ .idle ∧
    slotFileWf (busyWith []).par (busyWith []).slots = true := by decide

theorem witness_ResetValues : ∃ s t : State, t = s.perform .reset := ⟨busyWith [], _, rfl⟩

theorem witness_WipeZeroesTheSlotFile :
    let wipeNow : Arrival := ⟨.write 0x0003 1, false⟩
    let s := idleWith [(63, 0xFFFF)] [wipeNow, statusLater]
    slotFileWf s.par s.slots = true ∧ s.seq = .idle ∧ (1 : BusWord).getLsbD 0 = true ∧
    s.inputs = wipeNow :: [statusLater] ∧ statusLater.overtakes = false := by decide

/-- The multiprecision commands at the largest values, the groups at the top of the slot file. -/
theorem witness_MpResults :
    let s := load [(60, 0xFFFF), (61, 0xFFFF), (62, 0xFFFF), (63, 0xFFFF)]
    Ready s (.mpAdd .single 63 60 61) ∧ s.sourcesOf (.mpAdd .single 63 60 61) = ⟨[0xFFFF], [0xFFFF]⟩ ∧
    Ready s (.mpAdd .double 62 60 62) ∧ s.sourcesOf (.mpAdd .double 62 60 62) = ⟨[0xFFFF, 0xFFFF], [0xFFFF, 0xFFFF]⟩ ∧
    Ready s (.mpSub .single 63 60 61) ∧ s.sourcesOf (.mpSub .single 63 60 61) = ⟨[0xFFFF], [0xFFFF]⟩ ∧
    Ready s (.mpSub .double 62 60 62) ∧ s.sourcesOf (.mpSub .double 62 60 62) = ⟨[0xFFFF, 0xFFFF], [0xFFFF, 0xFFFF]⟩ ∧
    ((0 : Nat) : Int) = (((0xFFFF : Nat) : Int) - (0xFFFF : Nat)) % (s.par.r : Int) ∧
    Ready s (.mpSubc .fourP 63 60 61) ∧ s.sourcesOf (.mpSubc .fourP 63 60 61) = ⟨[0xFFFF], [0xFFFF]⟩ ∧
    ((4 * 6911 : Nat) : Int) = (((0xFFFF : Nat) : Int) - (0xFFFF : Nat) + (4 * s.par.p : Nat)) % (s.par.r : Int) ∧
    Ready s (.mpMul 62 60 61) ∧ s.sourcesOf (.mpMul 62 60 61) = ⟨[0xFFFF], [0xFFFF]⟩ ∧ 0xFFFF < s.par.r :=
  ⟨⟨by decide, by decide⟩, by decide, ⟨by decide, by decide⟩, by decide, ⟨by decide, by decide⟩, by decide,
    ⟨by decide, by decide⟩, by decide, by decide, ⟨by decide, by decide⟩, by decide, by decide,
    ⟨by decide, by decide⟩, by decide, by decide⟩

/-- A borrow: 3 minus 5, as MP_SUB and as MP_SUBC with `2p`. -/
theorem witness_MpSub_borrow :
    let s := load [(0, 3), (1, 5)]
    Ready s (.mpSub .single 2 0 1) ∧ s.sourcesOf (.mpSub .single 2 0 1) = ⟨[3], [5]⟩ ∧
    ((0xFFFE : Nat) : Int) = (((3 : Nat) : Int) - (5 : Nat)) % (s.par.r : Int) ∧
    ((2 * 6911 - 2 : Nat) : Int) = (((3 : Nat) : Int) - (5 : Nat) + (2 * s.par.p : Nat)) % (s.par.r : Int) :=
  ⟨⟨by decide, by decide⟩, by decide, by decide, by decide⟩

/-- The field commands at `2p − 1`, FP_RDC at `p·R − 1`. -/
theorem witness_FieldResults :
    let s := load [(60, 0x35FD), (61, 0x35FD), (62, 0xFFFF), (63, 0x1AFE)]
    s.par.admitted ∧ 0x35FD < 2 * s.par.p ∧ 0xFFFF + 0x1AFE * s.par.r < s.par.p * s.par.r ∧
    Ready s (.fpMul 63 60 61) ∧ s.sourcesOf (.fpMul 63 60 61) = ⟨[0x35FD], [0x35FD]⟩ ∧
    Ready s (.fpSqr 63 60) ∧ s.sourcesOf (.fpSqr 63 60) = ⟨[0x35FD], []⟩ ∧
    Ready s (.fpRdc 63 62) ∧ s.sourcesOf (.fpRdc 63 62) = ⟨[0xFFFF, 0x1AFE], []⟩ ∧
    Ready s (.fpInv 63 60) ∧ s.sourcesOf (.fpInv 63 60) = ⟨[0x35FD], []⟩ :=
  ⟨toy_admitted, by decide, by decide, ⟨by decide, by decide⟩, by decide, ⟨by decide, by decide⟩, by decide,
    ⟨by decide, by decide⟩, by decide, ⟨by decide, by decide⟩, by decide⟩

/-- Every slot from 54 on at the largest in-range value. -/
def largestSlots : List (Nat × Nat) := (List.range 10).map fun k => (54 + k, 0x35FD)

/-- The FP2 element with both components `2p − 1`, and the point of two of them. -/
def largest : Fp2 := ⟨0x35FD, 0x35FD⟩
def largestPoint : Point := ⟨largest, largest⟩

theorem largest_below : Fp2Below Params.toy largest := ⟨by decide, by decide⟩
theorem largestPoint_below : PointBelow Params.toy largestPoint := ⟨largest_below, largest_below⟩

theorem witness_ExtensionAndCurveResults :
    let s := load largestSlots
    s.par.admitted ∧ Fp2Below s.par largest ∧ PointBelow s.par largestPoint ∧
    Ready s (.fp2Mul 62 60 62) ∧ s.sourcesOf (.fp2Mul 62 60 62) = ⟨fp2Slots largest, fp2Slots largest⟩ ∧
    Ready s (.ptDbl 60 60 60 255) ∧
    s.sourcesOf (.ptDbl 60 60 60 255) = ⟨pointSlots largestPoint, fp2Slots largest ++ fp2Slots largest⟩ ∧
    Ready s (.ptDbl 60 60 60 0) ∧
    s.sourcesOf (.ptDbl 60 60 60 0) = ⟨pointSlots largestPoint, fp2Slots largest ++ fp2Slots largest⟩ ∧
    Ready s (.iso4Eval 60 60 58) ∧ s.sourcesOf (.iso4Eval 60 60 58) =
      ⟨pointSlots largestPoint, fp2Slots largest ++ fp2Slots largest ++ fp2Slots largest⟩ ∧
    Ready s (.iso3Eval 60 60 60) ∧
    s.sourcesOf (.iso3Eval 60 60 60) = ⟨pointSlots largestPoint, fp2Slots largest ++ fp2Slots largest⟩ :=
  ⟨toy_admitted, largest_below, largestPoint_below, ⟨by decide, by decide⟩, by decide, ⟨by decide, by decide⟩, by decide,
    ⟨by decide, by decide⟩, by decide, ⟨by decide, by decide⟩, by decide, ⟨by decide, by decide⟩, by decide⟩

theorem witness_PseudoInstructions :
    let s := load ([(0, 0x35FD), (1, 0x079C), (2, 1), (3, 0)] ++ largestSlots)
    s.par.admitted ∧ 0x35FD < 2 * s.par.p ∧ 0x35FD < s.par.r ∧ PointBelow s.par largestPoint ∧ Fp2Below s.par largest ∧
    Ready s (fpToMont 63 0 1) ∧ s.sourcesOf (fpToMont 63 0 1) = ⟨[0x35FD], [s.par.r ^ 2 % s.par.p]⟩ ∧
    Ready s (fpFromMont 63 0 2) ∧ s.sourcesOf (fpFromMont 63 0 2) = ⟨[0x35FD], [1]⟩ ∧
    Ready s (mpMov 63 0 3) ∧ s.sourcesOf (mpMov 63 0 3) = ⟨[0x35FD], [0]⟩ ∧
    Ready s (ptMov 60 56 60) ∧
    s.sourcesOf (ptMov 60 56 60) = ⟨pointSlots largestPoint, fp2Slots largest ++ fp2Slots largest⟩ :=
  ⟨toy_admitted, by decide, by decide, largestPoint_below, largest_below, ⟨by decide, by decide⟩, by decide,
    ⟨by decide, by decide⟩, by decide, ⟨by decide, by decide⟩, by decide, ⟨by decide, by decide⟩, by decide⟩

/-- The reducer's hypotheses at their ends: `T = p·R − 1`, and Montgomery forms of 3 and 5 (95_test_vectors.md). -/
theorem witness_MontgomeryReduction :
    Params.toy.admitted ∧ 0x1AFEFFFF < Params.toy.p * Params.toy.r ∧ 0x35FD < 2 * Params.toy.p ∧
    0x0C1C ≡ 3 * Params.toy.r [MOD Params.toy.p] ∧ 0x0B2F ≡ 5 * Params.toy.r [MOD Params.toy.p] :=
  ⟨toy_admitted, by decide, by decide, by decide, by decide⟩

theorem witness_SquareEqualsProductWithItself :
    let s := load [(63, 0x35FD)]
    s.seq = .idle ∧ s.unwritten (.fpSqr 0 63) = none ∧ s.slot 63 < 2 * s.par.p := by decide

theorem witness_MultiplyThenReduceEqualsFpMul :
    let s := load [(0, 0x35FD), (1, 0x35FD)]
    s.par.admitted ∧ s.seq = .idle ∧ Ready s (.mpMul 62 0 1) ∧ Ready s (.fpMul 63 0 1) ∧
    s.unwritten (.fpMul 63 0 1) = none ∧ s.slot 0 < 2 * s.par.p ∧ s.slot 1 < 2 * s.par.p :=
  ⟨toy_admitted, by decide, ⟨by decide, by decide⟩, ⟨by decide, by decide⟩, by decide, by decide, by decide⟩

theorem witness_SchoolbookLoopIsTheProduct : 0xFFFF < 2 ^ (2 * 8) ∧
    schoolbookLoop 8 (digitsOf 8 2 0xFFFF) (digitsOf 8 2 0xFFFF) (List.replicate 2 0) = [0x01, 0x00, 0xFE, 0xFF] := by
  decide

/-- The hypotheses of the arithmetic statements on field elements, FP2 elements, points and coefficients, at `2p − 1`. -/
theorem witness_ArithmeticStatements :
    Params.toy.admitted ∧ 0x35FD < 2 * Params.toy.p ∧ Fp2Below Params.toy largest ∧ PointBelow Params.toy largestPoint :=
  ⟨toy_admitted, by decide, largest_below, largestPoint_below⟩

/-- The 4-isogeny at its kernel point P4 with its own coefficients (section L2.4). -/
theorem witness_KernelPointMapsToInfinity_four :
    let q : Point := ⟨⟨0x1609, 0⟩, ⟨0x0D09, 0⟩⟩
    let s := load (pointP4 ++ k4Coefficients)
    s.par.admitted ∧ PointBelow s.par q ∧ Fp2Below s.par ⟨0x3424, 0⟩ ∧ Ready s (.iso4Eval 16 0 24) ∧
    s.sourcesOf (.iso4Eval 16 0 24) = ⟨pointSlots q, fp2Slots ⟨0x3424, 0⟩ ++ fp2Slots (fp2Sub s.par q.x q.z) ++
      fp2Slots (fp2Add s.par q.x q.z)⟩ :=
  ⟨toy_admitted, ⟨⟨by decide, by decide⟩, ⟨by decide, by decide⟩⟩, ⟨by decide, by decide⟩, ⟨by decide, by decide⟩,
    by decide⟩

/-- The 3-isogeny at its kernel point P3. -/
theorem witness_KernelPointMapsToInfinity_three :
    let q : Point := ⟨⟨0x0402, 0⟩, ⟨0x0D09, 0⟩⟩
    let s := load [(0, 0x0402), (1, 0), (2, 0x0D09), (3, 0), (60, 0x2CF7), (61, 0), (62, 0x110B), (63, 0)]
    Ready s (.iso3Eval 4 0 60) ∧ s.sourcesOf (.iso3Eval 4 0 60) =
      ⟨pointSlots q, fp2Slots (fp2Sub s.par q.x q.z) ++ fp2Slots (fp2Add s.par q.x q.z)⟩ :=
  ⟨⟨by decide, by decide⟩, by decide⟩

/-- FP_INV on an invertible operand, on the non-canonical zero `p`, and on 0. -/
theorem witness_InversionIsCorrect :
    let s := load [(0, 0x35FD), (1, 0x1AFF), (2, 0)]
    s.par.admitted ∧ Ready s (.fpInv 63 0) ∧ s.sourcesOf (.fpInv 63 0) = ⟨[0x35FD], []⟩ ∧ ¬ s.par.p ∣ 0x35FD ∧
    Ready s (.fpInv 63 1) ∧ s.sourcesOf (.fpInv 63 1) = ⟨[0x1AFF], []⟩ ∧ s.par.p ∣ 0x1AFF ∧
    s.sourcesOf (.fpInv 63 2) = ⟨[0], []⟩ :=
  ⟨toy_admitted, ⟨by decide, by decide⟩, by decide, by decide, ⟨by decide, by decide⟩, by decide, by decide, by decide⟩

/-- The least `p`, whose default chain is empty, and TOY's. -/
theorem witness_DefaultChainIsWellFormed : 3 ≤ 3 ∧ defaultChain 3 = [] ∧ 3 ≤ Params.toy.p := by decide

end Sys2Proof.Tests
end

section
/-! PROOF. Scope (00_scope.md): which digits a completed command writes (R19, R30, R35, R207). -/
namespace Sys2Proof.Machine

open Sys2Proof.Claims

/-- A digit of a slot whose digits are all written is written. -/
theorem digit_written_of_slotWritten {t : State} {k j : Nat} (ht : slotFileWf t.par t.slots = true) (hk : k < t.par.nslot)
    (hj : j < t.par.n) (hw : slotWritten (slotAt t.slots k) = true) : (t.digit k j).written = true := by
  obtain ⟨sl, -, -, rfl, hd, -⟩ := digit_of_wf ht hk hj
  exact List.all_eq_true.1 hw _ (List.mem_of_getElem? hd)

/-- A slot that two states share has the same digits in both. -/
theorem digit_congr {s t : State} {k : Nat} (h : t.slots[k]? = s.slots[k]?) (j : Nat) : t.digit k j = s.digit k j := by
  simp only [State.digit, slotAt, List.getD_eq_getElem?_getD, h]

/-- Every slot of a group that was written has all its digits written, whatever the values are. -/
theorem slotWritten_of_writeSlots {s t : State} {base k : Nat} {vs : List Nat} (hp : t.par = s.par)
    (ht : t.slots = writeSlots s.par s.slots base vs) (hb : base + vs.length ≤ s.slots.length)
    (hlo : base ≤ k) (hhi : k < base + vs.length) : slotWritten (slotAt t.slots k) = true := by
  obtain ⟨m, rfl⟩ := Nat.exists_eq_add_of_le hlo
  exact (slot_of_writeSlots hp ht hb (List.getElem?_eq_getElem (by omega))).2

/-- Settles O18: in range or not, a completion writes one value to each slot of the destination group and to no other slot. -/
theorem writtenCellsDependOnTheCommandOnly : Obligations.WrittenCellsDependOnTheCommandOnly := by
  rintro s i ⟨hs, hi⟩
  obtain ⟨op, hexec, hlen, -⟩ := exec_eq_complete i s
  obtain ⟨vs, hvs, ht⟩ := complete_slots i op s hlen
  have hp : (s.complete i op).par = s.par := complete_par i op s
  have hwf : slotFileWf (s.complete i op).par (s.complete i op).slots = true := hp ▸ complete_wf hs i op
  have hfit : i.dst.base.val + vs.length ≤ s.slots.length := by
    rw [hvs, ((slotFileWf_iff _ _).1 hs).1]
    exact wellFormed_dst hi
  refine ⟨_, hexec, by rw [ht, writeSlots_length], fun k j hk hj => ⟨?inside, ?outside⟩⟩
  case inside =>
    rintro ⟨hlo, hhi⟩
    exact digit_written_of_slotWritten hwf (hp ▸ hk) (hp ▸ hj) (slotWritten_of_writeSlots hp ht hfit hlo (hvs ▸ hhi))
  case outside =>
    intro hout
    refine digit_congr ?_ j
    rw [ht, writeSlots_outside _ _ _ _ _ (by omega)]

end Sys2Proof.Machine
end

section
/-! PROOF. State and acceptance (10_state.md): the machine invariant, acceptance and atomicity, the hidden temporaries, the
registers, slot values, and what reset leaves. -/

/-! ### The fault record is a set that grows (R206) -/

namespace Sys2Proof.Machine

@[simp] theorem mem_addFault {x r : Fault} {rs : List Fault} : x ∈ addFault r rs ↔ x ∈ rs ∨ x = r := by
  unfold addFault
  split
  next h => exact ⟨.inl, fun hx => hx.elim id fun e => e ▸ h⟩
  next h => simp

theorem subset_addFault (r : Fault) (rs : List Fault) : rs ⊆ addFault r rs := fun _ hx => mem_addFault.2 (.inl hx)

theorem addFault_nodup {r : Fault} {rs : List Fault} (h : rs.Nodup) : (addFault r rs).Nodup := by
  unfold addFault
  split
  next => exact h
  next hr => exact h.append (List.nodup_singleton r) (by simpa using hr)

theorem subset_recordFault (r : Option Fault) (rs : List Fault) : rs ⊆ recordFault r rs := by
  cases r with
  | none => exact List.Subset.refl rs
  | some r => exact subset_addFault r rs

theorem recordFault_nodup {r : Option Fault} {rs : List Fault} (h : rs.Nodup) : (recordFault r rs).Nodup := by
  cases r with
  | none => exact h
  | some r => exact addFault_nodup h

/-! ### Sampling (R30, R31) -/

/-- With every source digit written, what is sampled does not depend on the free values taken so far. -/
theorem sample_eq_of_written {s t : State} {i : Instr} (hp : t.par = s.par) (hs : t.slots = s.slots)
    (h : s.unwritten i = none) : t.sample i = s.sample i := by
  rw [State.sample, State.sample, hp, hs, sampleSources_written _ _ _ _ h, sampleSources_written _ _ _ _ h]

@[simp] theorem operand_slots_length (o : Operand) : o.slots.length = o.group.width := by simp [Operand.slots]

end Sys2Proof.Machine

/-! ### The machine invariant, operation by operation -/

namespace Sys2Proof.Safety

open Sys2Proof.Machine

/-- A group sampled from a slot file in canonical form has one number below `R` per slot. -/
theorem groupWf_sample {par : Params} {slots : List Slot} (h : slotFileWf par slots = true) (draws : Nat) (ks : List Nat) :
    groupWf par ks.length (ks.map (sampleSlot par slots draws)) := by
  refine ⟨List.length_map _, fun v hv => ?_⟩
  obtain ⟨k, -, rfl⟩ := List.mem_map.1 hv
  exact sampleSlot_lt h draws k

/-- A sequencer that runs no command holds nothing to speak of. -/
theorem sequencerWf_of_notRunning {s : State} (h : ∀ i src, s.seq ≠ .running i src) : sequencerWf s :=
  fun i src hr => absurd hr (h i src)

/-- What the sequencer holds depends on the parameters, the slots, CMD and the sequencer only. -/
theorem sequencerWf_congr {s t : State} (h : sequencerWf s) (hp : t.par = s.par) (hs : t.slots = s.slots)
    (hc : t.cmd = s.cmd) (hq : t.seq = s.seq) : sequencerWf t := by
  intro i src hr
  obtain ⟨hdec, hwf, h1, h2, hsrc⟩ := h i src (hq ▸ hr)
  rw [hp, hc]
  refine ⟨hdec, hwf, h1, h2, fun hu => ?_⟩
  have hu' : s.unwritten i = none := by rwa [State.unwritten, hs] at hu
  rw [sample_eq_of_written hp hs hu', hsrc hu']

/-- STATUS goes on to agree with a record that grows. -/
theorem statusWf_mono {s t : State} (h : statusWf s) (hi : t.ill = s.ill) (hh : t.haz = s.haz) (he : t.ecode = s.ecode)
    (hf : s.faults ⊆ t.faults) : statusWf t := by
  obtain ⟨hnone, hill, hhaz, hecill, hechaz⟩ := h
  refine ⟨by rw [hi, hh, he]; exact hnone, fun ht => ?_, fun ht => ?_, fun e ht => ?_, fun e ht => ?_⟩
  · exact (hill (hi ▸ ht)).imp fun _ hm => hf hm
  · exact (hhaz (hh ▸ ht)).imp fun _ hm => hf hm
  · exact hf (hecill e (he ▸ ht))
  · exact hf (hechaz e (he ▸ ht))

/-- Without an error STATUS agrees with any record. -/
theorem statusWf_of_noError {s : State} (hi : s.ill = false) (hh : s.haz = false) (he : s.ecode = .none) : statusWf s :=
  ⟨by simp [hi, hh, he], by simp [hi], by simp [hh], by simp [he], by simp [he]⟩

variable {s : State}

/-- The invariant says nothing of the last read, the counter of free values or the host's queue, and allows the record to grow
as a set. -/
theorem Inv.withHostFields (h : Inv s) (ins : List Arrival) (d : BusWord) (k : Nat) {fs : List Fault}
    (hsub : s.faults ⊆ fs) (hnd : fs.Nodup) :
    Inv { s with inputs := ins, readData := d, draws := k, faults := fs } :=
  ⟨h.slotFile, sequencerWf_congr h.sequencer rfl rfl rfl rfl, statusWf_mono h.status rfl rfl rfl hsub, hnd⟩

/-- A state in which no command runs needs a canonical slot file and the errors of a state with the invariant. -/
theorem Inv.of_notRunning {t : State} (h : Inv s) (hs : slotFileWf t.par t.slots = true)
    (hq : ∀ i src, t.seq ≠ .running i src) (hi : t.ill = s.ill) (hh : t.haz = s.haz) (he : t.ecode = s.ecode)
    (hf : t.faults = s.faults) : Inv t :=
  ⟨hs, sequencerWf_of_notRunning hq, statusWf_mono h.status hi hh he (by simp [hf]), hf ▸ h.record⟩

theorem Inv.refuse (h : Inv s) (e : IllCode) : Inv (s.refuse e) := by
  obtain ⟨-, -, hhaz, -, -⟩ := h.status
  refine ⟨h.slotFile, sequencerWf_congr h.sequencer rfl rfl rfl rfl, ⟨by simp, fun _ => ⟨e, by simp⟩, fun ht => ?_, ?_, ?_⟩,
    addFault_nodup h.record⟩
  · exact (hhaz ht).imp fun _ hm => subset_addFault _ _ hm
  · simp
  · simp

theorem Inv.hazard (h : Inv s) (e : HazCode) : Inv (s.hazard e) := by
  obtain ⟨-, hill, -, -, -⟩ := h.status
  refine ⟨h.slotFile, sequencerWf_congr h.sequencer rfl rfl rfl rfl, ⟨by simp, fun ht => ?_, fun _ => ⟨e, by simp⟩, ?_, ?_⟩,
    addFault_nodup h.record⟩
  · exact (hill ht).imp fun _ hm => subset_addFault _ _ hm
  · simp
  · simp

/-- Acceptance samples one number below `R` per source slot, and records its fault (R31, R205). -/
theorem Inv.accept (h : Inv s) {c : Word} {i : Instr} (hdec : decode c = .ok i) (hwf : i.wellFormed s.par.nslot = true) :
    Inv (s.accept c i) := by
  refine ⟨h.slotFile, fun j src hr => ?_, statusWf_mono h.status rfl rfl rfl (subset_recordFault _ _),
    recordFault_nodup h.record⟩
  obtain ⟨rfl, rfl⟩ : i = j ∧ s.sample i = src := by simpa using hr
  have hsrc1 := groupWf_sample h.slotFile s.draws i.src1.slots
  rw [operand_slots_length] at hsrc1
  exact ⟨hdec, hwf, hsrc1, groupWf_sample h.slotFile _ _, fun hu =>
    (sample_eq_of_written (s := s) (t := s.accept c i) rfl rfl hu).symm⟩

theorem Inv.submit (h : Inv s) (c : Word) : Inv (s.submit c) := by
  obtain ⟨i, hdec, hwf, hs⟩ | ⟨e, -, hs⟩ := submit_cases c s
  · exact hs ▸ h.accept hdec hwf
  · exact hs ▸ h.refuse e

/-- A STATUS write keeps ECODE while ILL or HAZ stays, and clears it otherwise (R27). -/
theorem Inv.clearStatus (h : Inv s) (v : BusWord) : Inv (s.clearStatus v) := by
  obtain ⟨hnone, hill, hhaz, hecill, hechaz⟩ := h.status
  have hkept : ∀ x ≠ ECode.none, (s.clearStatus v).ecode = x → s.ecode = x := by
    intro x hx
    rw [State.clearStatus_ecode]
    split
    next => exact id
    next => exact fun he => absurd he.symm hx
  refine ⟨h.slotFile, sequencerWf_congr h.sequencer rfl rfl rfl rfl, ⟨?_, fun ht => hill ?_, fun ht => hhaz ?_,
    fun e ht => hecill e (hkept _ (by simp) ht), fun e ht => hechaz e (hkept _ (by simp) ht)⟩, h.record⟩
  · rw [State.clearStatus_ecode, State.clearStatus_ill, State.clearStatus_haz]
    split
    next hb =>
      rw [hnone]
      refine ⟨fun ⟨hi, hz⟩ => by simp [hi, hz], fun ⟨hi, hz⟩ => ?_⟩
      exact absurd hb (by rw [hi, hz]; decide)
    next hb => simpa using hb
  · exact (Bool.and_eq_true_iff.1 ht).1
  · exact (Bool.and_eq_true_iff.1 ht).1

theorem Inv.resetInput (h : Inv s) : Inv s.resetInput :=
  ⟨resetSlots_wf s.par, sequencerWf_of_notRunning (by simp), statusWf_of_noError rfl rfl rfl, h.record⟩

/-! ### The invariant and one step -/

theorem Inv.hostRead (h : Inv s) (a : CellAddr) : Inv (s.hostRead a) := by
  obtain ⟨v, hs⟩ | hs | ⟨-, k, j, hs⟩ := hostRead_cases a s
  · exact hs ▸ h.withHostFields _ _ _ (List.Subset.refl _) h.record
  · exact hs ▸ h.withHostFields _ _ _ (List.Subset.refl _) h.record
  · exact hs ▸ h.withHostFields _ _ _ (subset_addFault _ _) (addFault_nodup h.record)

theorem Inv.hostWrite (h : Inv s) (a : CellAddr) (v : BusWord) : Inv (s.hostWrite a v) := by
  obtain hs | hs | ⟨-, e, hs⟩ | ⟨hq, hs | ⟨k, j, hs⟩ | hs⟩ := hostWrite_cases a v s
  · rwa [hs]
  · exact hs ▸ h.clearStatus v
  · exact hs ▸ h.hazard e
  · exact hs ▸ h.of_notRunning h.slotFile (by simp) rfl rfl rfl rfl
  · exact hs ▸ h.of_notRunning (setDigit_wf h.slotFile k j v) (by simp [hq]) rfl rfl rfl rfl
  · exact hs ▸ h.submit _

theorem Inv.perform (h : Inv s) (act : HostAction) : Inv (s.perform act) := by
  cases act with
  | read a => exact h.hostRead a
  | write a v => exact h.hostWrite a _
  | reset => exact h.resetInput

theorem Inv.complete (h : Inv s) (i : Instr) (op : Sources → Effect) : Inv (s.complete i op) :=
  h.of_notRunning (by simpa using complete_wf h.slotFile i op) (by simp) (by simp) (by simp) (by simp) (by simp)

theorem Inv.wipeComplete (h : Inv s) : Inv s.wipeComplete :=
  h.of_notRunning (wipedSlots_wf h.slotFile) (by simp) rfl rfl rfl rfl

theorem Inv.sequencerStep {t : State} (h : Inv s) (ht : sequencerStep s = .next t) : Inv t := by
  obtain ⟨-, hs⟩ | ⟨i, src, -, hs⟩ | ⟨-, hs⟩ := sequencerStep_cases s
  · obtain rfl : s = t := by simpa [hs] using ht
    exact h
  · obtain ⟨op, hexec, -⟩ := exec_eq_complete i s
    obtain rfl : s.complete i op = t := by simpa [hs, hexec] using ht
    exact h.complete i op
  · obtain rfl : s.wipeComplete = t := by simpa [hs] using ht
    exact h.wipeComplete

/-- Settles O11: each operation a step can perform keeps the invariant. -/
theorem stepKeepsTheMachineInvariant : Obligations.StepKeepsTheMachineInvariant := by
  intro s t h ht
  obtain ⟨hs, -⟩ | ⟨a, rest, -, -, hs⟩ := step_cases s
  · exact h.sequencerStep (hs ▸ ht)
  · have hrest : Inv { s with inputs := rest } := h.withHostFields _ _ _ (List.Subset.refl _) h.record
    obtain rfl : ({ s with inputs := rest } : State).perform a.act = t := by simpa [hs] using ht
    exact hrest.perform a.act

/-- The state after power-on, whatever the parameters. -/
theorem inv_resetOf (par : Params) : Inv (State.resetOf par) :=
  ⟨resetSlots_wf par, sequencerWf_of_notRunning (by simp), statusWf_of_noError rfl rfl rfl, by simp⟩

/-- Settles O12: every digit is unwritten, nothing runs, and no error is shown or recorded. -/
theorem resetMeetsTheMachineInvariant : Obligations.ResetMeetsTheMachineInvariant :=
  ⟨inv_resetOf, inv_resetOf Params.toy⟩

end Sys2Proof.Safety

/-! ### Which of the two a step performs (R31, R63, R204(c)) -/

namespace Sys2Proof.Machine

open Sys2Proof.Claims

variable {s t : State} {i : Instr}

/-- The host's next action is performed by an idle core, and by any core it overtakes. -/
theorem step_of_action {a : Arrival} {rest : List Arrival} (h : s.inputs = a :: rest)
    (ho : s.seq = .idle ∨ a.overtakes = true) :
    step s = .next (({ s with inputs := rest } : State).perform a.act) := by
  have hgo : (s.busy && !a.overtakes) = false := by
    rcases ho with hq | ha
    · simp [(busy_eq_false s).2 hq]
    · simp [ha]
  simp [step, h, hgo]

/-- The sequencer moves if the host has nothing to do, or waits for the completion of what is in progress. -/
theorem step_of_waits (hw : waits s.inputs) (h : s.inputs = [] ∨ s.seq ≠ .idle) : step s = sequencerStep s := by
  obtain ⟨hs, -⟩ | ⟨a, rest, hin, hidle | ho, -⟩ := step_cases s
  · exact hs
  · simp [hin, hidle] at h
  · simp [hin, waits, ho] at hw

/-- With a command in progress that no action overtakes, the step is the command's meaning. -/
theorem step_of_running {src : Sources} (hq : s.seq = .running i src) (hw : waits s.inputs) : step s = exec i s := by
  rw [step_of_waits hw (.inr (by simp [hq])), sequencerStep, hq]

theorem waits_afterCompletion (as : List Arrival) : waits (afterCompletion as) := by
  cases as with
  | nil => trivial
  | cons a as => rfl

/-- Settles O6: the first clause is the invariant's; `withFetchWord` accepts a legal word and sets every action to wait. -/
theorem stepRunsTheDecodedCommand : Obligations.StepRunsTheDecodedCommand := by
  constructor
  · intro s i src hinv hq hw
    obtain ⟨hdec, -⟩ := hinv.sequencer i src hq
    exact ⟨hdec, step_of_running hq hw⟩
  · intro s w i hleg
    have hword : BitVec.ofNat 32 (w % 2 ^ 32) = BitVec.ofNat 32 w := BitVec.eq_of_toNat_eq (by simp)
    have hacc : s.withFetchWord 32 w = ({ s with seq := .idle, inputs := afterCompletion s.inputs } : State).accept
        (BitVec.ofNat 32 w) i := by
      rw [State.withFetchWord, hword]
      exact submit_of_legal _ hleg
    rw [hacc]
    exact step_of_running rfl (waits_afterCompletion _)

/-! ### Acceptance (R31, R205) -/

/-- A legal word written to CMD while idle is accepted, an illegal one refused (R29). -/
theorem perform_write_cmd_legal {v : BusWord} (hq : s.seq = .idle) (hleg : legality s.par.nslot (v.setWidth 32) = .ok i) :
    s.perform (.write 0x0004 v) = s.accept (v.setWidth 32) i := by
  rw [perform_write_cmd, writeCmd_idle _ _ ((busy_eq_false s).2 hq), submit_of_legal _ hleg]

theorem perform_write_cmd_illegal {v : BusWord} {e : IllCode} (hq : s.seq = .idle)
    (hleg : legality s.par.nslot (v.setWidth 32) = .error e) : s.perform (.write 0x0004 v) = s.refuse e := by
  rw [perform_write_cmd, writeCmd_idle _ _ ((busy_eq_false s).2 hq), submit_of_illegal _ hleg]

/-- The step in which an idle core takes a legal word from the host. -/
theorem step_of_submission {v : BusWord} {o : Bool} {rest : List Arrival} (hq : s.seq = .idle)
    (hin : s.inputs = ⟨.write 0x0004 v, o⟩ :: rest) (hleg : legality s.par.nslot (v.setWidth 32) = .ok i) :
    step s = .next (({ s with inputs := rest } : State).accept (v.setWidth 32) i) := by
  rw [step_of_action hin (.inl hq)]
  exact congrArg Host.Outcome.next (perform_write_cmd_legal (s := { s with inputs := rest }) hq hleg)

/-- Settles O8: the step is `State.accept`, and sampling a written slot takes no free value. -/
theorem acceptanceSamplesTheSources : Obligations.AcceptanceSamplesTheSources := by
  intro s v o rest i hq hin hleg
  refine ⟨_, s.sample i, step_of_submission hq hin hleg, rfl, rfl, rfl, rfl, rfl, rfl, rfl, rfl, rfl, rfl, rfl, rfl, rfl,
    fun hw => ?_⟩
  have hu : s.unwritten i = none := (firstUnwritten_eq_none s.slots _).2 hw
  exact ⟨sampleSources_written _ _ _ _ hu, if_pos (Option.isNone_iff_eq_none.2 hu)⟩

/-- No fault at acceptance: every source digit is written and the sources are in range. -/
theorem inRange_of_acceptFault_eq_none (h : s.acceptFault i = none) : inRange s.par i (s.sample i) = true := by
  unfold State.acceptFault at h
  split at h
  · simp at h
  · simpa [inRange] using h

/-! ### Atomicity: what the host can do to a command in progress (R30, R31, R203) -/

/-- `t` has what a completion in range reads of `s`, and the same CMD and CF. -/
def SameCommand (s t : State) : Prop :=
  t.par = s.par ∧ t.slots = s.slots ∧ t.cf = s.cf ∧ t.cmd = s.cmd ∧ t.seq = s.seq

theorem SameCommand.refl (s : State) : SameCommand s s := ⟨rfl, rfl, rfl, rfl, rfl⟩

theorem SameCommand.trans {u : State} (h : SameCommand s t) (h' : SameCommand t u) : SameCommand s u := by
  obtain ⟨hp, hs, hf, hc, hq⟩ := h
  obtain ⟨hp', hs', hf', hc', hq'⟩ := h'
  exact ⟨hp'.trans hp, hs'.trans hs, hf'.trans hf, hc'.trans hc, hq'.trans hq⟩

/-- While busy no host action but the reset input reaches the command in progress. -/
theorem perform_sameCommand {act : HostAction} (hq : s.seq ≠ .idle) (ha : act ≠ .reset) :
    SameCommand s (s.perform act) ∧ (s.perform act).inputs = s.inputs := by
  cases act with
  | reset => exact absurd rfl ha
  | read a =>
    rw [State.perform]
    obtain ⟨v, hs⟩ | hs | ⟨hi, -⟩ := hostRead_cases a s
    · exact hs ▸ ⟨SameCommand.refl s, rfl⟩
    · exact hs ▸ ⟨SameCommand.refl s, rfl⟩
    · exact absurd hi hq
  | write a v =>
    rw [perform_write]
    obtain hs | hs | ⟨-, e, hs⟩ | ⟨hi, -⟩ := hostWrite_cases a v s
    · rw [hs]; exact ⟨SameCommand.refl s, rfl⟩
    · exact hs ▸ ⟨SameCommand.refl s, rfl⟩
    · exact hs ▸ ⟨SameCommand.refl s, rfl⟩
    · exact absurd hi hq

theorem run_add {m : Nat} (n : Nat) (h : run m s = .next t) : run (m + n) s = run n t := by
  induction m generalizing s with
  | zero =>
    obtain rfl : s = t := by simpa [run] using h
    rw [Nat.zero_add]
  | succ m ih =>
    rw [Nat.succ_add, run]
    rw [run] at h
    split at h
    next => exact ih h
    next => simp at h
    next => simp at h

theorem run_one (h : step s = .next t) : run 1 s = .next t := by rw [run, h]; rfl

/-- Any list of overtaking actions leaves the command in progress. -/
theorem run_overtaking {mid rest : List Arrival} (hq : s.seq ≠ .idle) (hin : s.inputs = mid ++ rest)
    (hmid : ∀ a ∈ mid, whileRunning a) :
    ∃ t, run mid.length s = .next t ∧ SameCommand s t ∧ t.inputs = rest := by
  induction mid generalizing s with
  | nil => exact ⟨s, rfl, SameCommand.refl s, hin⟩
  | cons a mid ih =>
    obtain ⟨ho, ha⟩ := hmid a (by simp)
    obtain ⟨hsame, hrest⟩ := perform_sameCommand (s := { s with inputs := mid ++ rest }) hq ha
    obtain ⟨-, -, -, -, hseq⟩ := id hsame
    obtain ⟨t, hrun, hsame', ht⟩ := ih (fun hi => hq (hseq.symm.trans hi)) hrest fun b hb => hmid b (by simp [hb])
    refine ⟨t, ?_, hsame.trans hsame', ht⟩
    rw [List.length_cons, Nat.add_comm, run_add _ (run_one (step_of_action hin (.inr ho)))]
    exact hrun

/-- The rule of a command depends on the state by its parameters only. -/
theorem exec_eq_complete_congr (i : Instr) (hp : t.par = s.par) :
    ∃ op : Sources → Effect, exec i s = .next (s.complete i op) ∧ exec i t = .next (t.complete i op) := by
  cases i <;> exact ⟨_, rfl, by rw [← hp]; rfl⟩

/-- A command on the same sources in range, slots and CF gives the same slots, CF and hidden temporaries. -/
theorem exec_congr_of_inRange {u : State} (hp : t.par = s.par) (hs : t.slots = s.slots) (hf : t.cf = s.cf)
    (hsrc : t.sourcesOf i = s.sourcesOf i) (hr : inRange s.par i (s.sourcesOf i) = true) (hu : exec i s = .next u) :
    ∃ u', exec i t = .next u' ∧ u'.slots = u.slots ∧ u'.cf = u.cf ∧ u'.temps = u.temps := by
  obtain ⟨op, hexec, hexec'⟩ := exec_eq_complete_congr i hp
  obtain rfl : s.complete i op = u := by simpa [hexec] using hu
  refine ⟨_, hexec', ?_⟩
  rw [complete_of_inRange _ _ _ hr, complete_of_inRange _ _ _ (by rwa [hp, hsrc]), hsrc]
  simp [hp, hs, hf]

/-- A completion keeps CMD and the host's queue and leaves the core idle. -/
theorem exec_frame {u : State} (h : exec i s = .next u) : u.cmd = s.cmd ∧ u.seq = .idle ∧ u.inputs = s.inputs := by
  obtain ⟨op, hexec, -⟩ := exec_eq_complete i s
  obtain rfl : s.complete i op = u := by simpa [hexec] using h
  simp

/-- Settles O10: acceptance samples the sources, what the host does meanwhile does not reach the command, and the completion
in range is a function of the sampled sources, the slots and CF. -/
theorem commandIsAtomicDespiteTheHost : Obligations.CommandIsAtomicDespiteTheHost := by
  intro s u v o mid rest i _ hq hin hleg hfault hmid hw hu
  have haccept := step_of_submission hq hin hleg
  obtain ⟨t, hrun, ⟨hp, hs, hf, hc, hseq⟩, ht⟩ := run_overtaking
    (s := ({ s with inputs := mid ++ rest } : State).accept (v.setWidth 32) i) (by simp) rfl hmid
  have hrunning : t.seq = .running i (s.sample i) := hseq
  have hsrc : t.sourcesOf i = s.sourcesOf i := by rw [sourcesOf_running _ _ _ hrunning, sourcesOf_idle _ _ hq]
  have hr : inRange s.par i (s.sourcesOf i) = true := by
    rw [sourcesOf_idle _ _ hq]
    exact inRange_of_acceptFault_eq_none hfault
  obtain ⟨u', hu', hslots, hcf, htemps⟩ := exec_congr_of_inRange (s := s) hp hs hf hsrc hr hu
  obtain ⟨hcmd, hidle, hinputs⟩ := exec_frame hu'
  have hstep : step t = .next u' := (step_of_running hrunning (ht ▸ hw)).trans hu'
  refine ⟨u', ?_, hslots, hcf, hcmd.trans hc, hidle, hinputs.trans ht, htemps⟩
  rw [show mid.length + 2 = 1 + (mid.length + 1) by omega, run_add _ (run_one haccept), run_add _ hrun, run_one hstep]

/-! ### The hidden temporaries (R32) -/

/-- A state with other hidden temporaries. -/
def State.withTemps (h : List Nat) (s : State) : State := { s with temps := h }

section HiddenTemporaries

variable (s : State) (h : List Nat)

/-- No command's meaning reads them, and every completion leaves temporaries of its own. -/
theorem exec_withTemps (i : Instr) : exec i (s.withTemps h) = exec i s := by
  cases i <;> rfl

theorem readDigit_withTemps (k j : Nat) : (s.withTemps h).readDigit k j = (s.readDigit k j).withTemps h := by
  simp only [State.readDigit, apply_ite (State.withTemps h)]
  rfl

theorem hostRead_withTemps (a : CellAddr) : (s.withTemps h).hostRead a = (s.hostRead a).withTemps h := by
  have hp : (s.withTemps h).par = s.par := rfl
  rw [State.hostRead, State.hostRead, hp]
  cases cellOf s.par a with
  | digit k j => exact readDigit_withTemps s h k j
  | id | param | status | ctrl | cmd | reserved => rfl

theorem submit_withTemps (c : Word) : (s.withTemps h).submit c = (s.submit c).withTemps h := by
  have hp : (s.withTemps h).par = s.par := rfl
  rw [State.submit, State.submit, hp]
  cases legality s.par.nslot c <;> rfl

theorem writeCtrl_withTemps (v : BusWord) : (s.withTemps h).writeCtrl v = (s.writeCtrl v).withTemps h := by
  simp only [State.writeCtrl, apply_ite (State.withTemps h)]
  rfl

theorem writeCmd_withTemps (v : BusWord) : (s.withTemps h).writeCmd v = (s.writeCmd v).withTemps h := by
  simp only [State.writeCmd, apply_ite (State.withTemps h), submit_withTemps]
  rfl

theorem writeDigit_withTemps (k j : Nat) (v : BusWord) :
    (s.withTemps h).writeDigit k j v = (s.writeDigit k j v).withTemps h := by
  simp only [State.writeDigit, apply_ite (State.withTemps h)]
  rfl

theorem hostWrite_withTemps (a : CellAddr) (v : BusWord) :
    (s.withTemps h).hostWrite a v = (s.hostWrite a v).withTemps h := by
  have hp : (s.withTemps h).par = s.par := rfl
  rw [State.hostWrite, State.hostWrite, hp]
  cases cellOf s.par a with
  | ctrl => exact writeCtrl_withTemps s h v
  | cmd => exact writeCmd_withTemps s h v
  | digit k j => exact writeDigit_withTemps s h k j v
  | id | param | status | reserved => rfl

theorem perform_withTemps (act : HostAction) : ∃ h', (s.withTemps h).perform act = (s.perform act).withTemps h' := by
  cases act with
  | read a => exact ⟨h, hostRead_withTemps s h a⟩
  | write a v => exact ⟨h, hostWrite_withTemps s h a _⟩
  | reset => exact ⟨Config.lostTemps s.draws, rfl⟩

theorem sequencerStep_withTemps :
    ∃ t h', sequencerStep s = .next t ∧ sequencerStep (s.withTemps h) = .next (t.withTemps h') := by
  have hq : (s.withTemps h).seq = s.seq := rfl
  rw [sequencerStep, sequencerStep, hq]
  cases s.seq with
  | idle => exact ⟨s, h, rfl, rfl⟩
  | running i src =>
    obtain ⟨op, hexec, -⟩ := exec_eq_complete i s
    exact ⟨_, _, hexec, (exec_withTemps s h i).trans hexec⟩
  | wiping => exact ⟨_, h.map fun _ => 0, rfl, rfl⟩

end HiddenTemporaries

/-- Settles O17: which action or completion a step performs does not depend on the temporaries, and nor does what it does to
any other field. -/
theorem hiddenTemporariesAreUnobservable : Obligations.HiddenTemporariesAreUnobservable := by
  intro s h
  obtain ⟨hs, hcond⟩ | ⟨a, rest, hin, ho, hs⟩ := step_cases s
  · have hw : waits s.inputs ∧ (s.inputs = [] ∨ s.seq ≠ .idle) := by
      obtain hin | ⟨a, rest, hin, hq, ha⟩ := hcond
      · exact ⟨by simp [hin, waits], .inl hin⟩
      · exact ⟨by simp [hin, waits, ha], .inr hq⟩
    obtain ⟨t, h', ht, ht'⟩ := sequencerStep_withTemps s h
    exact ⟨t, h', hs.trans ht, (step_of_waits (s := s.withTemps h) hw.1 hw.2).trans ht'⟩
  · obtain ⟨h', hp⟩ := perform_withTemps { s with inputs := rest } h a.act
    exact ⟨_, h', hs, (step_of_action (s := s.withTemps h) hin ho).trans (congrArg Host.Outcome.next hp)⟩

end Sys2Proof.Machine

/-! ### The registers (R25 to R29) -/

namespace Sys2Proof.Machine

theorem busy_eq_true (s : State) : s.busy = true ↔ s.seq ≠ .idle := by
  rw [← Bool.not_eq_false, ne_eq, not_congr (busy_eq_false s)]

/-- PARAM as a sum of its fields: with admitted parameters none of them reaches the next one's place (R26). -/
theorem paramWord_toNat {par : Params} (hw : par.w ≤ 64) (hn : par.n ≤ 255) (hs : par.nslot ≤ 64) :
    (paramWord par).toNat = par.w + par.n * 256 + par.nslot * 65536 + 16777216 := by
  rw [paramWord, BitVec.toNat_ofNat]
  omega

/-- Settles O25: the two cells are constants of the parameter set, and no write reaches them. -/
theorem idAndParamAreHardwired : Obligations.IdAndParamAreHardwired := by
  refine ⟨fun s v hadm => ⟨perform_read_id s, perform_write_id s v, perform_write_param s v, _, perform_read_param s, ?_⟩, ?_⟩
  · obtain ⟨-, hw, -, -, hn, -, -, -, -, hs, -⟩ := hadm
    rw [BitVec.toNat_setWidth, paramWord_toNat hw hn hs]
    omega
  · rw [perform_read_param]
    decide

theorem ecodeNumber_le (e : ECode) : ecodeNumber e ≤ 7 := by
  cases e with
  | none => decide
  | ill e => cases e <;> decide
  | haz e => cases e <;> decide

theorem statusFields_le (s : State) : s.busy.toNat ≤ 1 ∧ s.ill.toNat ≤ 1 ∧ s.haz.toNat ≤ 1 ∧ s.cf.toNat ≤ 1 ∧
    ecodeNumber s.ecode ≤ 7 :=
  ⟨s.busy.toNat_le, s.ill.toNat_le, s.haz.toNat_le, s.cf.toNat_le, ecodeNumber_le s.ecode⟩

/-- STATUS as a sum of its fields: none of them reaches the next one's place (R27). -/
theorem statusWord_toNat (s : State) : s.statusWord.toNat =
    s.busy.toNat + s.ill.toNat * 2 + s.haz.toNat * 4 + ecodeNumber s.ecode * 16 + s.cf.toNat * 256 := by
  obtain ⟨hb, hi, hh, hc, he⟩ := statusFields_le s
  rw [State.statusWord, BitVec.toNat_ofNat]
  omega

/-- Bit `k` of STATUS, read off its number. -/
theorem statusWord_getLsbD (s : State) (k : Nat) (b : Bool) (h : s.statusWord.toNat / 2 ^ k % 2 = b.toNat) :
    s.statusWord.getLsbD k = b := by
  rw [BitVec.getLsbD, Nat.testBit_eq_decide_div_mod_eq, h]
  cases b <;> rfl

theorem statusWord_fields (s : State) :
    s.statusWord.getLsbD 0 = s.busy ∧ s.statusWord.getLsbD 1 = s.ill ∧ s.statusWord.getLsbD 2 = s.haz ∧
      s.statusWord.getLsbD 3 = false ∧ s.statusWord.toNat / 16 % 16 = ecodeNumber s.ecode ∧
      s.statusWord.getLsbD 8 = s.cf ∧ s.statusWord.toNat < 512 := by
  obtain ⟨hb, hi, hh, hc, he⟩ := statusFields_le s
  have hw := statusWord_toNat s
  have hreserved : s.statusWord.toNat / 2 ^ 3 % 2 = false.toNat := by rw [Bool.toNat_false]; omega
  exact ⟨statusWord_getLsbD s 0 _ (by omega), statusWord_getLsbD s 1 _ (by omega), statusWord_getLsbD s 2 _ (by omega),
    statusWord_getLsbD s 3 _ hreserved, by omega, statusWord_getLsbD s 8 _ (by omega), by omega⟩

/-- STATUS is 0 in an idle state without an error and with CF = 0. -/
theorem statusWord_eq_zero {s : State} (hq : s.seq = .idle) (hi : s.ill = false) (hh : s.haz = false)
    (he : s.ecode = .none) (hc : s.cf = false) : s.statusWord = 0 := by
  simp [State.statusWord, (busy_eq_false s).2 hq, hi, hh, he, hc, ecodeNumber]

/-- A STATUS write as the spec tells it: bit 1 clears ILL, bit 2 clears HAZ, and ECODE goes with the last of them (R27). -/
theorem clearStatus_eq (s : State) (v : BusWord) : s.clearStatus v = { s with
    ill := if v.getLsbD 1 = true then false else s.ill
    haz := if v.getLsbD 2 = true then false else s.haz
    ecode := if (s.clearStatus v).ill = false ∧ (s.clearStatus v).haz = false then .none else s.ecode } := by
  have hclear : ∀ b c : Bool, (b && !c) = if c = true then false else b := by decide
  have hcode : (s.clearStatus v).ecode =
      if (s.clearStatus v).ill = false ∧ (s.clearStatus v).haz = false then .none else s.ecode := by
    rw [State.clearStatus_ecode, State.clearStatus_ill, State.clearStatus_haz]
    cases s.ill && !v.getLsbD 1 <;> cases s.haz && !v.getLsbD 2 <;> rfl
  rw [← hcode, ← hclear, ← hclear]
  rfl

/-- Settles O26: the fields of STATUS stand in disjoint places, and a write is `State.clearStatus`. -/
theorem statusRegister : Obligations.StatusRegister := by
  refine ⟨fun s => ?_, fun par => statusWord_eq_zero rfl rfl rfl rfl rfl, fun s v => ?_⟩
  · obtain ⟨hbusy, hfields⟩ := statusWord_fields s
    exact ⟨perform_read_status s, by rw [hbusy, busy_eq_true], hfields⟩
  · rw [perform_write_status]
    exact clearStatus_eq s v

/-- Settles O27: a CTRL write is `State.writeCtrl`, which looks at bit 0 and BUSY. -/
theorem ctrlRegister : Obligations.CtrlRegister := by
  intro s v
  refine ⟨perform_read_ctrl s, fun hv => ?_, fun hv hq => ?_, fun hv hq => ?_⟩
  · rw [perform_write_ctrl, State.writeCtrl, if_neg (by rw [hv]; decide)]
  · rw [perform_write_ctrl, State.writeCtrl, if_pos hv, if_neg (by simp [(busy_eq_false s).2 hq])]
    rfl
  · rw [perform_write_ctrl, State.writeCtrl, if_pos hv, if_pos ((busy_eq_true s).2 hq)]
    rfl

/-- Settles O28: a CMD write is a submission while idle and the hazard 5 while busy. -/
theorem cmdRegister : Obligations.CmdRegister := by
  refine ⟨fun _ => rfl, fun s v => ⟨perform_read_cmd s, fun hq i hleg => ?_, fun hq e hleg => ?_, fun hq => ?_⟩⟩
  · rw [perform_write_cmd_legal hq hleg]
    exact ⟨rfl, rfl⟩
  · rw [perform_write_cmd_illegal hq hleg]
    exact ⟨rfl, hq⟩
  · rw [perform_write_cmd, writeCmd_busy _ _ ((busy_eq_true s).2 hq)]
    rfl

/-! ### Slot values (R21) -/

theorem valueOf_eq_sum (w : Nat) (ds : List Nat) :
    valueOf w ds = ∑ j ∈ Finset.range ds.length, ds.getD j 0 * 2 ^ (j * w) := by
  induction ds with
  | nil => rfl
  | cons d ds ih =>
    rw [valueOf, ih, List.length_cons, Finset.sum_range_succ', Finset.mul_sum, Nat.add_comm]
    congr 1
    · refine Finset.sum_congr rfl fun j _ => ?_
      rw [List.getD_cons_succ, Nat.succ_mul, Nat.pow_add]
      ring
    · simp

/-- Settles O31: a canonical slot has N digits, and its value is theirs. -/
theorem slotValueIsTheDigitSum : Obligations.SlotValueIsTheDigitSum := by
  intro s k hs hk
  have hlen : (slotAt s.slots k).length = s.par.n := by
    have hwf := slotAt_wf hs (k := k) (by rwa [((slotFileWf_iff _ _).1 hs).1])
    simp only [slotWf, Bool.and_eq_true, decide_eq_true_eq] at hwf
    exact hwf.1
  rw [State.slot, slotValue, valueOf_eq_sum, List.length_map, hlen]
  refine Finset.sum_congr rfl fun j _ => ?_
  rw [State.digit, show (0 : Nat) = Digit.unwritten.val from rfl, List.getD_map]

/-! ### Reset (R36, R230) -/

theorem digit_unwritten_of_resetSlots {t : State} {par : Params} (h : t.slots = resetSlots par) (k j : Nat) :
    (t.digit k j).written = false := by
  simp only [State.digit, slotAt, h, resetSlots, List.getD_eq_getElem?_getD, List.getElem?_replicate]
  split_ifs
  · rw [Option.getD_some, List.getElem?_replicate]
    split_ifs <;> rfl
  · rfl

/-- Settles O32: power-on and the reset input give the core's own fields the same values. -/
theorem resetValues : Obligations.ResetValues := by
  intro s t ht
  have hfields : t.par = s.par ∧ t.slots = resetSlots s.par ∧ t.cf = false ∧ t.ill = false ∧ t.haz = false ∧
      t.ecode = .none ∧ t.cmd = 0 ∧ t.seq = .idle := by
    obtain rfl | rfl := ht <;> exact ⟨rfl, rfl, rfl, rfl, rfl, rfl, rfl, rfl⟩
  obtain ⟨hpar, hslots, hcf, hill, hhaz, hecode, hcmd, hseq⟩ := hfields
  refine ⟨digit_unwritten_of_resetSlots hslots, hcf, statusWord_eq_zero hseq hill hhaz hecode hcf, hcmd, hseq, hpar,
    by simp [hslots, resetSlots], ?_, ?_, ?_, rfl, rfl⟩
  · rw [perform_read_id, State.returns_readData, hpar]
  · rw [perform_read_param, State.returns_readData, hpar]
  · rw [perform_read_ctrl, State.returns_readData]

end Sys2Proof.Machine

end

section
/-! PROOF. Memory and the host port (20_memory.md): the cell map, the bus, slot cells, and the order of the host's actions. -/

/-! ### The cell map (R52 to R54) -/

namespace Sys2Proof.Machine

variable (s : State)

/-- Settles O23: the registers, the window digit by digit, and what is left. -/
theorem cellMapIsTheSpecs : Obligations.CellMapIsTheSpecs := by
  intro par hw
  exact ⟨cellOf_id par, cellOf_param par, cellOf_status par, cellOf_ctrl par, cellOf_cmd par,
    fun k j hk hj => cellOf_digitAddr hw hk hj, fun a h5 ha => cellOf_reserved h5 ha⟩

/-- Settles O24: the address is a reserved cell's. -/
theorem reservedCellsAreInert : Obligations.ReservedCellsAreInert := by
  intro s a v h5 ha
  have hcell : cellOf s.par a = .reserved := cellOf_reserved h5 ha
  exact ⟨perform_read_reserved s hcell, perform_write_reserved s v hcell⟩

/-- Every digit of the cell map lies in the slot file, the converse of `cellOf_digitAddr`. -/
theorem cellOf_digit_bounds {par : Params} {a : CellAddr} {k j : Nat} (h : cellOf par a = .digit k j) :
    k < par.nslot ∧ j < par.n := by
  unfold cellOf Params.windowSize at h
  split at h
  case h_6 =>
    split at h
    next hwin =>
      obtain ⟨rfl, rfl⟩ := Cell.digit.inj h
      have hoff : a.toNat - windowBase < par.n * par.nslot := by rw [Nat.mul_comm]; omega
      exact ⟨Nat.div_lt_of_lt_mul hoff, Nat.mod_lt _ (Nat.pos_of_mul_pos_right (Nat.zero_lt_of_lt hoff))⟩
    next => cases h
  all_goals cases h

/-! ### The order of the host's actions (R50, R63, R204(c), R215) -/

/-- Settles O7: the first clause is `step_of_action`; with an empty queue an idle sequencer has nothing to complete. -/
theorem stepPerformsTheHostAction : Obligations.StepPerformsTheHostAction := by
  refine ⟨fun s a rest hin ho => step_of_action hin ho, fun s hin hq => ?_⟩
  rw [step_of_waits (by rw [hin]; trivial) (.inl hin), sequencerStep, hq]

/-! ### Reading a slot cell (R56) -/

theorem readDigit_busy (k j : Nat) (h : s.busy = true) : s.readDigit k j = s.returnsFree := by
  rw [State.readDigit, if_pos h]

theorem readDigit_written {k j : Nat} (h : s.busy = false) (hd : (s.digit k j).written = true) :
    s.readDigit k j = s.returns (BitVec.ofNat 64 (s.digit k j).val) := by
  rw [State.readDigit, if_neg (by simp [h]), if_pos hd]

theorem readDigit_unwritten {k j : Nat} (h : s.busy = false) (hd : (s.digit k j).written = false) :
    s.readDigit k j = { s.returnsFree with faults := addFault (.unwrittenRead k j) s.faults } := by
  rw [State.readDigit, if_neg (by simp [h]), if_neg (by simp [hd])]

/-- A value below `2^W` is still below it on the host bus. -/
theorem toNat_ofNat_lt {w x : Nat} (n : Nat) (h : x < 2 ^ w) : (BitVec.ofNat n x).toNat < 2 ^ w := by
  rw [BitVec.toNat_ofNat]
  exact (Nat.mod_le _ _).trans_lt h

theorem returnsFree_readData_lt : s.returnsFree.readData.toNat < 2 ^ s.par.w :=
  toNat_ofNat_lt 64 (Nat.mod_lt _ (Nat.two_pow_pos _))

theorem digit_val_lt {s : State} {k j : Nat} (hs : slotFileWf s.par s.slots = true) (hk : k < s.par.nslot)
    (hj : j < s.par.n) : (s.digit k j).val < 2 ^ s.par.w := by
  obtain ⟨-, -, -, -, -, hwf⟩ := digit_of_wf hs hk hj
  simp only [digitWf, Bool.and_eq_true, decide_eq_true_eq] at hwf
  exact hwf.1

theorem readDigit_readData_lt {s : State} {k j : Nat} (hval : (s.digit k j).val < 2 ^ s.par.w) :
    (s.readDigit k j).readData.toNat < 2 ^ s.par.w := by
  cases hb : s.busy with
  | true => rw [readDigit_busy s k j hb]; exact returnsFree_readData_lt s
  | false =>
    cases hd : (s.digit k j).written with
    | true => rw [readDigit_written s hb hd]; exact toNat_ofNat_lt 64 hval
    | false => rw [readDigit_unwritten s hb hd]; exact returnsFree_readData_lt s

/-- No read has a side effect but on the count of free values and the fault record. -/
theorem perform_read_frame (a : CellAddr) : s.perform (.read a) = { s with
    readData := (s.perform (.read a)).readData
    draws := (s.perform (.read a)).draws
    faults := (s.perform (.read a)).faults } := by
  rw [show s.perform (.read a) = s.hostRead a from rfl]
  obtain ⟨v, h⟩ | h | ⟨-, k, j, h⟩ := hostRead_cases a s <;> rw [h] <;> rfl

/-- Settles O30: the three outcomes of a digit's read, and the frame of any read. -/
theorem slotCellRead : Obligations.SlotCellRead := by
  refine ⟨fun s k j hwin hw64 hs hk hj t ht => ?_, perform_read_frame⟩
  have hval : (s.digit k j).val < 2 ^ s.par.w := digit_val_lt hs hk hj
  have hread : t = s.readDigit k j := ht.trans (perform_read_digit s (cellOf_digitAddr hwin hk hj))
  have hlt : t.readData.toNat < 2 ^ s.par.w := hread ▸ readDigit_readData_lt hval
  refine ⟨fun hq hd => ?_, fun hq hd => ⟨hlt, ?_⟩, fun hq => ⟨hlt, ?_⟩⟩
  · have hfits : (s.digit k j).val < 2 ^ 64 := hval.trans_le (Nat.pow_le_pow_right (by decide) hw64)
    rw [hread, readDigit_written s ((busy_eq_false s).2 hq) hd]
    exact ⟨Nat.mod_eq_of_lt hfits, rfl⟩
  · rw [hread, readDigit_unwritten s ((busy_eq_false s).2 hq) hd]
  · rw [hread, readDigit_busy s k j ((busy_eq_true s).2 hq), State.returnsFree_faults]

/-! ### Writing a slot cell (R57) -/

theorem slotAt_set_self {slots : List Slot} {k : Nat} (sl : Slot) (h : k < slots.length) :
    slotAt (slots.set k sl) k = sl := by
  simp [slotAt, h]

/-- Writing a digit twice is writing it once. -/
theorem setDigit_setDigit {k : Nat} (j : Nat) (v : BusWord) (h : k < s.slots.length) :
    (s.setDigit k j v).setDigit k j v = s.setDigit k j v := by
  have hslots : ((s.setDigit k j v).setDigit k j v).slots = (s.setDigit k j v).slots := by
    simp only [State.setDigit_slots, State.setDigit_par, slotAt_set_self _ h, List.set_set]
  exact congrArg (fun sls => { s with slots := sls }) hslots

/-- What a read returns right after the digit was written while idle. -/
theorem readDigit_setDigit {s : State} {k j : Nat} (hs : slotFileWf s.par s.slots = true) (hk : k < s.par.nslot)
    (hj : j < s.par.n) (v : BusWord) (hb : s.busy = false) :
    ((s.setDigit k j v).readDigit k j).readData.toNat = v.toNat % 2 ^ s.par.w := by
  have hd : (s.setDigit k j v).digit k j = ⟨v.toNat % 2 ^ s.par.w, true⟩ := by
    rw [setDigit_digit hs hk hj, if_pos ⟨rfl, rfl⟩]
  have hfits : v.toNat % 2 ^ s.par.w < 2 ^ 64 := (Nat.mod_le _ _).trans_lt v.isLt
  rw [readDigit_written (s.setDigit k j v) hb (by rw [hd]), hd]
  exact Nat.mod_eq_of_lt hfits

/-- Settles O29: while idle the write is `State.setDigit`, while busy it is the hazard 6. -/
theorem slotCellWrite : Obligations.SlotCellWrite := by
  intro s k j v hwin hs hk hj t ht
  have hcell : cellOf s.par (digitAddr s.par k j) = .digit k j := cellOf_digitAddr hwin hk hj
  have hwrite : t = s.writeDigit k j v := ht.trans (perform_write_digit s v hcell)
  refine ⟨fun hq => ?_, fun hq => ?_⟩
  · have hb : s.busy = false := (busy_eq_false s).2 hq
    have hlen : k < s.slots.length := by rwa [((slotFileWf_iff _ _).1 hs).1]
    obtain rfl : t = s.setDigit k j v := hwrite.trans (writeDigit_idle s v k j hb)
    refine ⟨?_, fun k' j' hne => ?_, rfl, ?_, ?_⟩
    · rw [setDigit_digit hs hk hj, if_pos ⟨rfl, rfl⟩]
    · rw [setDigit_digit hs hk hj, if_neg (by tauto)]
    · rw [perform_read_digit (s.setDigit k j v) hcell]
      exact readDigit_setDigit hs hk hj v hb
    · rw [perform_write_digit (s.setDigit k j v) v hcell, writeDigit_idle (s.setDigit k j v) v k j hb]
      exact setDigit_setDigit s j v hlen
  · rw [hwrite, writeDigit_busy s v k j ((busy_eq_true s).2 hq)]
    rfl

/-! ### The bus (R51, R55) -/

theorem cell_width_le_busWidth (par : Params) (c : Cell) : c.width par ≤ par.busWidth := by
  cases c with
  | digit k j => exact Nat.le_max_right 32 par.w
  | id | param | status | ctrl | cmd | reserved => exact Nat.le_max_left 32 par.w

/-- A register's value, zero-extended on the bus. -/
theorem setWidth_word_lt (c : Word) : (c.setWidth 64).toNat < 2 ^ 32 := by
  rw [BitVec.toNat_setWidth_of_le (by decide)]
  exact c.isLt

/-- A read returns a value of its cell's width (R55). -/
theorem perform_read_readData_lt (a : CellAddr) (hs : slotFileWf s.par s.slots = true) :
    (s.perform (.read a)).readData.toNat < 2 ^ (cellOf s.par a).width s.par := by
  simp only [State.perform, State.hostRead]
  cases hcell : cellOf s.par a with
  | id => exact setWidth_word_lt s.par.coreId
  | param => exact setWidth_word_lt (paramWord s.par)
  | status => exact setWidth_word_lt s.statusWord
  | cmd => exact setWidth_word_lt s.cmd
  | ctrl | reserved => exact Nat.two_pow_pos 32
  | digit k j =>
    obtain ⟨hk, hj⟩ := cellOf_digit_bounds hcell
    exact readDigit_readData_lt (digit_val_lt hs hk hj)

section Agreement

variable {v v' : BusWord}

theorem setWidth_eq_of_mod_eq (h : v.toNat % 2 ^ 32 = v'.toNat % 2 ^ 32) : v.setWidth 32 = v'.setWidth 32 :=
  BitVec.eq_of_toNat_eq (by simpa using h)

theorem getLsbD_eq_of_mod_eq (h : v.toNat % 2 ^ 32 = v'.toNat % 2 ^ 32) {k : Nat} (hk : k < 32) :
    v.getLsbD k = v'.getLsbD k := by
  simpa [hk] using congrArg (BitVec.getLsbD · k) (setWidth_eq_of_mod_eq h)

/-- A write depends on the bits its cell has only (R55). -/
theorem perform_write_eq_of_mod_eq (a : CellAddr)
    (h : v.toNat % 2 ^ (cellOf s.par a).width s.par = v'.toNat % 2 ^ (cellOf s.par a).width s.par) :
    s.perform (.write a v) = s.perform (.write a v') := by
  simp only [perform_write, State.hostWrite]
  cases hcell : cellOf s.par a with
  | id | param | reserved => rfl
  | status =>
    rw [hcell] at h
    simp only [State.clearStatus, getLsbD_eq_of_mod_eq h (show 1 < 32 by decide),
      getLsbD_eq_of_mod_eq h (show 2 < 32 by decide)]
  | ctrl =>
    rw [hcell] at h
    simp only [State.writeCtrl, getLsbD_eq_of_mod_eq h (show 0 < 32 by decide)]
  | cmd =>
    rw [hcell] at h
    simp only [State.writeCmd, setWidth_eq_of_mod_eq h]
  | digit k j =>
    rw [hcell, Cell.width] at h
    simp only [State.writeDigit, State.setDigit, h]

end Agreement

/-- Settles O60: the bus is at least as wide as every cell, so values that agree on its bits agree on the cell's. -/
theorem hostBusCarriesEveryCell : Obligations.HostBusCarriesEveryCell := by
  rintro s a width rfl
  have hle : (cellOf s.par a).width s.par ≤ s.par.busWidth := cell_width_le_busWidth _ _
  refine ⟨?_, hle, fun v v' h => perform_write_eq_of_mod_eq s a h, fun v v' h => perform_write_eq_of_mod_eq s a ?_,
    perform_read_readData_lt s a⟩
  · rw [Params.busWidth]
    split_ifs <;> omega
  · rw [← Nat.mod_mod_of_dvd _ (two_pow_dvd_busWidth hle), h, Nat.mod_mod_of_dvd _ (two_pow_dvd_busWidth hle)]

end Sys2Proof.Machine

end

section
/-! PROOF. Encoding (30_encoding.md): the two round trips of the command word, the legality function, reserved opcodes, and
the pseudo-instructions. -/

/-! ### Decoding an encoded command (R80, R84, R85) -/

namespace Sys2Proof

open Sys2Proof.Machine Sys2Proof.Claims

/-- Decoding a word that was put together from fields looks at those fields. -/
theorem decode_assemble {opc : Nat} (h : opc < 64) (rd rs1 rs2 : SlotIx) (imm : Fin 256) :
    decode (assemble opc rd rs1 rs2 imm) = decodeFields opc rd rs1 rs2 imm := by
  obtain ⟨hopc, hrd, hrs1, hrs2, himm⟩ := Laws.EncodedFields.assemble_fields opc rd rs1 rs2 imm h
  rw [decode, hopc, hrd, hrs1, hrs2, himm]

/-- Every row of the opcode map decodes to its command, the unused fields being 0 and a used IMM8 of MP_ADD, MP_SUB and
MP_SUBC being 0 or 1. -/
theorem decode_encode (i : Instr) : decode (encode i) = .ok i := by
  cases i with
  | mpAdd wd | mpSub wd => cases wd <;> exact decode_assemble (Laws.EncodedFields.opc_lt _) ..
  | mpSubc sel => cases sel <;> exact decode_assemble (Laws.EncodedFields.opc_lt _) ..
  | mpMul | fpMul | fpSqr | fpRdc | fpInv | fp2Mul | ptDbl | iso4Eval | iso3Eval =>
    exact decode_assemble (Laws.EncodedFields.opc_lt _) ..

/-- A word that decodes is legal exactly when its command is well formed (R88). -/
theorem legality_of_decode {c : Word} {i : Instr} (h : decode c = .ok i) (nslot : Nat) :
    legality nslot c = if i.wellFormed nslot then .ok i else .error .illRange := by
  rw [legality, h]

/-- A word that does not decode is illegal for the decoder's reason. -/
theorem legality_of_decode_error {c : Word} {e : IllCode} (h : decode c = .error e) (nslot : Nat) :
    legality nslot c = .error e := by
  rw [legality, h]

/-- Settles O1: a command's word carries the fields that its row of the opcode map reads back. -/
theorem decodeEncodeRoundTrip : Obligations.DecodeEncodeRoundTrip :=
  fun i => ⟨decode_encode i, legality_of_decode (decode_encode i)⟩

/-! ### Encoding a decoded word (R87) -/

/-- A word is put together from its own five fields: they cover its 32 bits. -/
theorem assemble_self (c : Word) : assemble (opcOf c) (rdOf c) (rs1Of c) (rs2Of c) (immOf c) = c := by
  have hc := c.isLt
  apply BitVec.eq_of_toNat_eq
  simp only [assemble, opcOf, rdOf, rs1Of, rs2Of, immOf, BitVec.toNat_ofNat]
  omega

theorem oneBitImm_eq_ok {imm : Fin 256} {i j : Instr} : oneBitImm imm i = .ok j ↔ imm.val ≤ 1 ∧ i = j := by
  unfold oneBitImm
  split
  next h => simp [h]
  next h => simp [Nat.le_of_not_lt h]

theorem zeroImm_eq_ok {imm : Fin 256} {i j : Instr} : zeroImm imm i = .ok j ↔ imm = 0 ∧ i = j := by
  by_cases himm : imm = 0
  · simp [zeroImm, himm]
  · simp [zeroImm, himm]

theorem zeroRs2_eq_ok {rs2 : SlotIx} {imm : Fin 256} {i j : Instr} :
    zeroRs2 rs2 imm i = .ok j ↔ rs2 = 0 ∧ imm = 0 ∧ i = j := by
  by_cases hrs2 : rs2 = 0
  · simp [zeroRs2, hrs2, zeroImm_eq_ok]
  · simp [zeroRs2, hrs2]

theorem width_imm_widthOf {imm : Fin 256} (h : imm.val ≤ 1) : (widthOf imm).imm = imm := by
  obtain rfl | rfl : imm = 0 ∨ imm = 1 := by omega
  · rfl
  · rfl

theorem correction_imm_correctionOf {imm : Fin 256} (h : imm.val ≤ 1) : (correctionOf imm).imm = imm := by
  obtain rfl | rfl : imm = 0 ∨ imm = 1 := by omega
  · rfl
  · rfl

/-- The fields that decode to a command are the ones its encoding puts together: a used IMM8 is the DW or SEL bit, and an
unused field is 0. -/
theorem encode_of_decodeFields {opc : Nat} {rd rs1 rs2 : SlotIx} {imm : Fin 256} {i : Instr}
    (h : decodeFields opc rd rs1 rs2 imm = .ok i) : encode i = assemble opc rd rs1 rs2 imm := by
  unfold decodeFields at h
  split at h
  case h_1 | h_2 =>
    obtain ⟨himm, rfl⟩ := oneBitImm_eq_ok.1 h
    rw [encode, width_imm_widthOf himm]; rfl
  case h_3 =>
    obtain ⟨himm, rfl⟩ := oneBitImm_eq_ok.1 h
    rw [encode, correction_imm_correctionOf himm]; rfl
  case h_4 | h_5 | h_9 | h_11 | h_12 =>
    obtain ⟨rfl, rfl⟩ := zeroImm_eq_ok.1 h
    rfl
  case h_6 | h_7 | h_8 =>
    obtain ⟨rfl, rfl, rfl⟩ := zeroRs2_eq_ok.1 h
    rfl
  case h_10 =>
    cases h
    rfl
  case h_13 => cases h

/-- Settles O2: the word and the encoding of its command are put together from the same fields. -/
theorem encodeDecodeRoundTrip : Obligations.EncodeDecodeRoundTrip :=
  fun c _ h => (encode_of_decodeFields h).trans (assemble_self c)

/-! ### The legality function (R88) -/

/-- R88's checks before the one on ranges: the code of the first that applies, else `rest`. -/
def formatCodeOr (rest opc : Nat) (rs2 : SlotIx) (imm : Fin 256) : Nat :=
  if opc = 0 ∨ 0x0C < opc then 1
  else if (opc = 0x06 ∨ opc = 0x07 ∨ opc = 0x08) ∧ rs2.val ≠ 0 then 2
  else if 0x04 ≤ opc ∧ opc ≠ 0x0A ∧ imm.val ≠ 0 then 2
  else if opc ≤ 0x03 ∧ 1 < imm.val then 3
  else rest

/-- The code of R88's check on ranges, or 0: a used field's group, of the given width, runs past the slot file. -/
def rangeCode (nslot : Nat) (rd rs1 rs2 : SlotIx) : Nat × Nat × Nat → Nat
  | (wd, w1, w2) =>
    if nslot < rd.val + wd ∨ nslot < rs1.val + w1 ∨ (w2 ≠ 0 ∧ nslot < rs2.val + w2) then 4 else 0

/-- The number of a refusal, or `rest` for a command. -/
def refusalNumberOr (rest : Nat) : Except IllCode Instr → Nat
  | .ok _ => rest
  | .error e => illNumber e

theorem refusalNumberOr_oneBitImm (rest : Nat) (imm : Fin 256) (i : Instr) :
    refusalNumberOr rest (oneBitImm imm i) = if 1 < imm.val then 3 else rest := by
  unfold oneBitImm
  split <;> rfl

theorem refusalNumberOr_zeroImm (rest : Nat) (imm : Fin 256) (i : Instr) :
    refusalNumberOr rest (zeroImm imm i) = if imm.val ≠ 0 then 2 else rest := by
  unfold zeroImm
  split <;> rfl

theorem refusalNumberOr_zeroRs2 (rest : Nat) (rs2 : SlotIx) (imm : Fin 256) (i : Instr) :
    refusalNumberOr rest (zeroRs2 rs2 imm i) = if rs2.val ≠ 0 then 2 else if imm.val ≠ 0 then 2 else rest := by
  unfold zeroRs2
  split
  · rfl
  · exact refusalNumberOr_zeroImm rest imm i

/-- Row by row of the opcode map, the decoder makes the checks of R88 in its order. -/
theorem refusalNumberOr_decodeFields (rest opc : Nat) (rd rs1 rs2 : SlotIx) (imm : Fin 256) :
    refusalNumberOr rest (decodeFields opc rd rs1 rs2 imm) = formatCodeOr rest opc rs2 imm := by
  unfold decodeFields
  split
  case h_1 | h_2 | h_3 => simp [refusalNumberOr_oneBitImm, formatCodeOr]
  case h_4 | h_5 | h_9 | h_11 | h_12 => simp [refusalNumberOr_zeroImm, formatCodeOr]
  case h_6 | h_7 | h_8 => simp [refusalNumberOr_zeroRs2, formatCodeOr]
  case h_10 => rfl
  case h_13 =>
    simp only [imp_false] at *
    exact (if_pos (show opc = 0 ∨ 0x0C < opc by omega)).symm

theorem group_width_ne_zero (g : Group) : g.width ≠ 0 := by cases g <;> decide

/-- The DW bit is added to the width of a group. -/
theorem width_widthOf {imm : Fin 256} (h : imm.val ≤ 1) : (widthOf imm).group.width = 1 + imm.val := by
  obtain rfl | rfl : imm = 0 ∨ imm = 1 := by omega
  · rfl
  · rfl

/-- The operands of a decoded command stand at the bases the fields name, and their groups have the widths of R85. -/
theorem operands_of_decodeFields {opc : Nat} {rd rs1 rs2 : SlotIx} {imm : Fin 256} {i : Instr}
    (h : decodeFields opc rd rs1 rs2 imm = .ok i) : ∃ gd g1, i.dst = ⟨rd, gd⟩ ∧ i.src1 = ⟨rs1, g1⟩ ∧
      ((i.src2 = none ∧ fieldWidths opc imm.val = (gd.width, g1.width, 0)) ∨
        ∃ g2, i.src2 = some ⟨rs2, g2⟩ ∧ fieldWidths opc imm.val = (gd.width, g1.width, g2.width)) := by
  unfold decodeFields at h
  split at h
  case h_1 | h_2 =>
    obtain ⟨himm, rfl⟩ := oneBitImm_eq_ok.1 h
    refine ⟨_, _, rfl, rfl, .inr ⟨_, rfl, ?_⟩⟩
    rw [width_widthOf himm]
    rfl
  case h_3 =>
    obtain ⟨himm, rfl⟩ := oneBitImm_eq_ok.1 h
    exact ⟨_, _, rfl, rfl, .inr ⟨_, rfl, rfl⟩⟩
  case h_4 | h_5 | h_9 | h_11 | h_12 =>
    obtain ⟨-, rfl⟩ := zeroImm_eq_ok.1 h
    exact ⟨_, _, rfl, rfl, .inr ⟨_, rfl, rfl⟩⟩
  case h_6 | h_7 | h_8 =>
    obtain ⟨-, -, rfl⟩ := zeroRs2_eq_ok.1 h
    exact ⟨_, _, rfl, rfl, .inl ⟨rfl, rfl⟩⟩
  case h_10 =>
    cases h
    exact ⟨_, _, rfl, rfl, .inr ⟨_, rfl, rfl⟩⟩
  case h_13 => cases h

/-- The check on ranges is well-formedness. -/
theorem rangeCode_of_decodeFields {opc : Nat} {rd rs1 rs2 : SlotIx} {imm : Fin 256} {i : Instr}
    (h : decodeFields opc rd rs1 rs2 imm = .ok i) (nslot : Nat) :
    rangeCode nslot rd rs1 rs2 (fieldWidths opc imm.val) = if i.wellFormed nslot then 0 else 4 := by
  obtain ⟨gd, g1, hd, h1, hsrc2⟩ := operands_of_decodeFields h
  rw [rangeCode, ← ite_not]
  congr 1
  obtain ⟨h2, hw⟩ | ⟨g2, h2, hw⟩ := hsrc2
  · simp [Instr.wellFormed, hd, h1, h2, hw, Operand.fits, Operand.optionFits]
  · simp [Instr.wellFormed, hd, h1, h2, hw, Operand.fits, Operand.optionFits, group_width_ne_zero, and_assoc]

/-- The bit fields of R80 are the decoder's fields. -/
theorem extractLsb'_fields (c : Word) :
    (c.extractLsb' 26 6).toNat = opcOf c ∧ (c.extractLsb' 20 6).toNat = (rdOf c).val ∧
      (c.extractLsb' 14 6).toNat = (rs1Of c).val ∧ (c.extractLsb' 8 6).toNat = (rs2Of c).val ∧
      (c.extractLsb' 0 8).toNat = (immOf c).val := by
  have hc := c.isLt
  simp only [BitVec.extractLsb'_toNat, Nat.shiftRight_eq_div_pow, opcOf, rdOf, rs1Of, rs2Of, immOf, true_and]
  omega

/-- R88 as the checks the decoder makes and then the one on ranges. -/
theorem legalityNumber_eq (nslot : Nat) (c : Word) : legalityNumber nslot c =
    refusalNumberOr (rangeCode nslot (rdOf c) (rs1Of c) (rs2Of c) (fieldWidths (opcOf c) (immOf c).val)) (decode c) := by
  obtain ⟨hopc, hrd, hrs1, hrs2, himm⟩ := extractLsb'_fields c
  rw [decode, refusalNumberOr_decodeFields, legalityNumber, hopc, hrd, hrs1, hrs2, himm]
  rfl

/-- Settles O3: the decoder makes the first checks, and well-formedness is the last. -/
theorem legalityFollowsTheSpecFunction : Obligations.LegalityFollowsTheSpecFunction := by
  intro nslot c
  rw [legalityNumber_eq]
  cases hdec : decode c with
  | error e => rw [legality_of_decode_error hdec]; rfl
  | ok i =>
    rw [legality_of_decode hdec, rangeCode_of_decodeFields hdec]
    cases i.wellFormed nslot <;> rfl

/-! ### Reserved opcodes (R86) -/

theorem decodeFields_reserved {opc : Nat} (h : opc = 0x00 ∨ 0x0D ≤ opc) (rd rs1 rs2 : SlotIx) (imm : Fin 256) :
    decodeFields opc rd rs1 rs2 imm = .error .illOpc := by
  unfold decodeFields
  split
  case h_13 => rfl
  all_goals omega

theorem legality_reserved {c : Word} (h : opcOf c = 0x00 ∨ 0x0D ≤ opcOf c) (nslot : Nat) :
    legality nslot c = .error .illOpc :=
  legality_of_decode_error (decodeFields_reserved h ..) nslot

/-- Settles O4: a reserved opcode is the decoder's first check, and a refusal is `State.refuse`. -/
theorem reservedOpcodesAreRefused : Obligations.ReservedOpcodesAreRefused := by
  refine ⟨fun s v hq hopc => perform_write_cmd_illegal hq (legality_reserved hopc _), fun nslot c i hleg => ?_⟩
  by_contra hopc
  rw [legality_reserved (by omega)] at hleg
  cases hleg

end Sys2Proof

/-! ### Montgomery reduction (R120, R126) -/

namespace Sys2Proof.Machine

variable {par : Params}

theorem r_pos (par : Params) : 0 < par.r := Nat.two_pow_pos _

theorem p_odd_of_admitted (h : par.admitted) : par.p % 2 = 1 := by
  obtain ⟨-, -, -, -, -, -, hmod, -⟩ := h
  omega

theorem p_pos_of_admitted (h : par.admitted) : 0 < par.p := by
  have := p_odd_of_admitted h
  omega

/-- The headroom of R7: a sum of values below `2p` is below `R`. -/
theorem eight_p_le_r (h : par.admitted) : 8 * par.p ≤ par.r := by
  obtain ⟨-, -, -, -, -, -, -, hr, -⟩ := h
  exact hr

/-- `R` is a power of two and `p` is odd. -/
theorem coprime_p_r (h : par.admitted) : Nat.Coprime par.p par.r :=
  Nat.Coprime.pow_right _ (Nat.coprime_two_right.2 (Nat.odd_iff.2 (p_odd_of_admitted h)))

theorem redc_mul_r_modEq (h : par.admitted) (t : Nat) : redc par t * par.r ≡ t [MOD par.p] := by
  rw [redc_mul_r (p_odd_of_admitted h)]
  exact Nat.add_mul_mod_self_right t _ par.p

/-- The working range of the reducer's result (R126). -/
theorem redc_lt_two_p (h : par.admitted) {t : Nat} (ht : t < par.pr) : redc par t < 2 * par.p := by
  have hM : montgomeryFactor par t * par.p ≤ par.r * par.p := Nat.mul_le_mul_right _ (montgomeryFactor_lt par t).le
  refine Nat.lt_of_mul_lt_mul_right (a := par.r) ?_
  calc redc par t * par.r = t + montgomeryFactor par t * par.p := redc_mul_r (p_odd_of_admitted h) t
    _ < par.p * par.r + par.r * par.p := Nat.add_lt_add_of_lt_of_le ht hM
    _ = 2 * par.p * par.r := by ring

/-- The reducer takes a value below `R` to one of at most `p` (R126). -/
theorem redc_le_p (h : par.admitted) {t : Nat} (ht : t < par.r) : redc par t ≤ par.p := by
  have hM : montgomeryFactor par t * par.p ≤ par.r * par.p := Nat.mul_le_mul_right _ (montgomeryFactor_lt par t).le
  refine Nat.le_of_lt_succ (Nat.lt_of_mul_lt_mul_right (a := par.r) ?_)
  calc redc par t * par.r = t + montgomeryFactor par t * par.p := redc_mul_r (p_odd_of_admitted h) t
    _ < par.r + par.r * par.p := Nat.add_lt_add_of_lt_of_le ht hM
    _ = (par.p + 1) * par.r := by ring

theorem redc_zero (par : Params) : redc par 0 = 0 := by simp [redc, montgomeryFactor]

theorem redc_eq_zero (h : par.admitted) {t : Nat} : redc par t = 0 ↔ t = 0 := by
  refine ⟨fun h0 => ?_, fun h0 => h0 ▸ redc_zero par⟩
  have := redc_mul_r (p_odd_of_admitted h) t
  rw [h0, Nat.zero_mul] at this
  omega

/-- The reducer keeps and reflects multiples of `p`. -/
theorem p_dvd_redc (h : par.admitted) {t : Nat} : par.p ∣ redc par t ↔ par.p ∣ t := by
  rw [← (redc_mul_r_modEq h t).dvd_iff dvd_rfl, (coprime_p_r h).dvd_mul_right]

/-- Below `R` the non-canonical zero `p` comes from the non-zero multiples of `p` only (R126). -/
theorem redc_eq_p (h : par.admitted) {t : Nat} (ht : t < par.r) : redc par t = par.p ↔ par.p ∣ t ∧ t ≠ 0 := by
  rw [← p_dvd_redc h, ne_eq, ← redc_eq_zero h]
  refine ⟨fun he => ⟨dvd_of_eq he.symm, ?_⟩, fun ⟨hdvd, hne⟩ => ?_⟩
  · rw [he]
    exact (p_pos_of_admitted h).ne'
  · exact (redc_le_p h ht).antisymm (Nat.le_of_dvd (Nat.pos_of_ne_zero hne) hdvd)

/-! ### A completion in range (R30, R31, R205) -/

open Sys2Proof.Claims

variable {s : State} {i : Instr} {op : Sources → Effect}

/-- The range the model checks is the table of R205. -/
theorem inRange_iff_requires (par : Params) (i : Instr) (src : Sources) :
    inRange par i src = true ↔ Requires par i src := by
  cases i with
  | mpAdd | mpSub | mpSubc | mpMul => exact iff_of_true rfl trivial
  | fpRdc => exact Option.isNone_iff_eq_none.trans (ite_eq_left_iff.trans (by simp [Requires, Instr.opc, dwOf, Params.pr]))
  | fpMul | fpSqr | fpInv | fp2Mul | ptDbl | iso4Eval | iso3Eval =>
    exact Option.isNone_iff_eq_none.trans firstOverTwoP_eq_none

section InRange

variable {src : Sources} (hsrc : s.sourcesOf i = src) (hreq : Requires s.par i src)

include hsrc hreq

/-- In range, the completion retires the command's rule on its sources. -/
theorem complete_of_requires : s.complete i op = s.retire i src (op src) := by
  subst hsrc
  exact complete_of_inRange i op s ((inRange_iff_requires _ _ _).2 hreq)

/-- In range, CF is what the command's rule gives, or unchanged. -/
theorem complete_cf : (s.complete i op).cf = (op src).cf.getD s.cf := by
  rw [complete_of_requires hsrc hreq, State.retire_cf]

/-- In range, the destination group holds the values of the command's rule. -/
theorem complete_groupHolds (hready : Ready s i) {vs : List Nat} (hvs : (op src).dsts = vs)
    (hlen : vs.length = i.dst.group.width) (hlt : Below s.par.r vs) : GroupHolds (s.complete i op) i.dst.base vs := by
  obtain ⟨hfile, hwf⟩ := hready
  intro j v hj
  have hslots : (s.complete i op).slots = writeSlots s.par s.slots i.dst.base vs := by
    rw [complete_of_requires hsrc hreq, State.retire_slots, hvs]
  have hfit : i.dst.base.val + vs.length ≤ s.slots.length := by
    rw [hlen, ((slotFileWf_iff _ _).1 hfile).1]
    exact wellFormed_dst hwf
  have h := slot_of_writeSlots (complete_par i op s) hslots hfit hj
  rwa [Nat.mod_eq_of_lt (hlt v (List.mem_of_getElem? hj))] at h

end InRange

theorem slot_of_groupHolds {t : State} {base v : Nat} {vs : List Nat} (h : GroupHolds t base (v :: vs)) :
    t.slot base = v :=
  (h 0 v rfl).1

/-! ### The pseudo-instructions (R92) -/

/-- FP_MUL on factors below `2p`. -/
theorem exec_fpMul_slot {d a b : SlotIx} {x y : Nat} (hadm : s.par.admitted) (hready : Ready s (.fpMul d a b))
    (hx : x < 2 * s.par.p) (hy : y < 2 * s.par.p) (hsrc : s.sourcesOf (.fpMul d a b) = ⟨[x], [y]⟩) :
    ∃ t, exec (.fpMul d a b) s = .next t ∧ t.slot d = redc s.par (x * y) ∧ redc s.par (x * y) < 2 * s.par.p := by
  have h8 := eight_p_le_r hadm
  have hreq : Requires s.par (.fpMul d a b) ⟨[x], [y]⟩ := ⟨by simpa [Below] using hx, by simpa [Below] using hy⟩
  have hprod : x * y < s.par.pr := by
    calc x * y < 2 * s.par.p * (2 * s.par.p) := Nat.mul_lt_mul'' hx hy
      _ = s.par.p * (4 * s.par.p) := by ring
      _ ≤ s.par.pr := Nat.mul_le_mul_left _ (by omega)
  have hlt : redc s.par (x * y) < 2 * s.par.p := redc_lt_two_p hadm hprod
  refine ⟨_, rfl, slot_of_groupHolds (complete_groupHolds hsrc hreq hready rfl rfl ?_), hlt⟩
  simpa [Below] using hlt.trans_le (show 2 * s.par.p ≤ s.par.r by omega)

/-- FP_TOMONT: the constant `R^2 mod p` brings a factor `R` in, of which the reducer takes one out. -/
theorem fpToMont_result {d a r2 : SlotIx} {x : Nat} (hadm : s.par.admitted) (hready : Ready s (fpToMont d a r2))
    (hx : x < 2 * s.par.p) (hsrc : s.sourcesOf (fpToMont d a r2) = ⟨[x], [s.par.r ^ 2 % s.par.p]⟩) :
    ∃ t, exec (fpToMont d a r2) s = .next t ∧ t.slot d ≡ x * s.par.r [MOD s.par.p] ∧ t.slot d < 2 * s.par.p := by
  have hr2 : s.par.r ^ 2 % s.par.p < 2 * s.par.p := by
    have := Nat.mod_lt (s.par.r ^ 2) (p_pos_of_admitted hadm)
    omega
  obtain ⟨t, hexec, hslot, hlt⟩ := exec_fpMul_slot hadm hready hx hr2 hsrc
  refine ⟨t, hexec, ?_, hslot ▸ hlt⟩
  refine Nat.ModEq.cancel_right_of_coprime (coprime_p_r hadm) ?_
  calc t.slot d * s.par.r = redc s.par (x * (s.par.r ^ 2 % s.par.p)) * s.par.r := by rw [hslot]
    _ ≡ x * (s.par.r ^ 2 % s.par.p) [MOD s.par.p] := redc_mul_r_modEq hadm _
    _ ≡ x * s.par.r ^ 2 [MOD s.par.p] := (Nat.mod_modEq _ _).mul_left x
    _ = x * s.par.r * s.par.r := by ring

/-- FP_FROMMONT: the constant 1 leaves the reducer alone. -/
theorem fpFromMont_result {d a one : SlotIx} {x : Nat} (hadm : s.par.admitted) (hready : Ready s (fpFromMont d a one))
    (hx : x < 2 * s.par.p) (hsrc : s.sourcesOf (fpFromMont d a one) = ⟨[x], [1]⟩) :
    ∃ t, exec (fpFromMont d a one) s = .next t ∧ t.slot d = redc s.par x ∧ t.slot d * s.par.r ≡ x [MOD s.par.p] ∧
      t.slot d ≤ s.par.p ∧ (t.slot d = s.par.p ↔ s.par.p ∣ x ∧ x ≠ 0) := by
  have h1 : 1 < 2 * s.par.p := by
    have := p_pos_of_admitted hadm
    omega
  have hxr : x < s.par.r := by
    have := eight_p_le_r hadm
    omega
  obtain ⟨t, hexec, hslot, -⟩ := exec_fpMul_slot hadm hready hx h1 hsrc
  rw [Nat.mul_one] at hslot
  refine ⟨t, hexec, hslot, ?_⟩
  rw [hslot]
  exact ⟨redc_mul_r_modEq hadm x, redc_le_p hadm hxr, redc_eq_p hadm hxr⟩

/-- MP_MOV: adding 0 neither wraps nor carries. -/
theorem mpMov_result {d a z : SlotIx} {x : Nat} (hready : Ready s (mpMov d a z)) (hx : x < s.par.r)
    (hsrc : s.sourcesOf (mpMov d a z) = ⟨[x], [0]⟩) :
    ∃ t, exec (mpMov d a z) s = .next t ∧ t.slot d = x ∧ t.cf = false := by
  have hreq : Requires s.par (mpMov d a z) ⟨[x], [0]⟩ := trivial
  have hsum : [(x + 0) % s.par.r] = [x] := by rw [Nat.add_zero, Nat.mod_eq_of_lt hx]
  have hcarry : carryOut s.par.r x 0 = false := by simp [carryOut, Nat.div_eq_of_lt hx]
  exact ⟨_, rfl, slot_of_groupHolds (complete_groupHolds hsrc hreq hready hsum rfl (by simpa [Below] using hx)),
    (complete_cf hsrc hreq).trans hcarry⟩

theorem below_fp2Slots {par : Params} {a : Fp2} (h : Fp2Below par a) : Below (2 * par.p) (fp2Slots a) := by
  obtain ⟨h0, h1⟩ := h
  simp [Below, fp2Slots, h0, h1]

theorem below_append {bound : Nat} {us vs : List Nat} (hu : Below bound us) (hv : Below bound vs) :
    Below bound (us ++ vs) :=
  fun v h => (List.mem_append.1 h).elim (hu v) (hv v)

theorem below_pointSlots {par : Params} {q : Point} (h : PointBelow par q) : Below (2 * par.p) (pointSlots q) :=
  below_append (below_fp2Slots h.1) (below_fp2Slots h.2)

/-- PT_MOV: no doubling is a copy, whatever the curve. -/
theorem ptMov_result {d q c : SlotIx} {p : Point} {a24plus c24 : Fp2} (hadm : s.par.admitted)
    (hready : Ready s (ptMov d q c)) (hp : PointBelow s.par p) (ha : Fp2Below s.par a24plus) (hc : Fp2Below s.par c24)
    (hsrc : s.sourcesOf (ptMov d q c) = ⟨pointSlots p, fp2Slots a24plus ++ fp2Slots c24⟩) :
    ∃ t, exec (ptMov d q c) s = .next t ∧ GroupHolds t d (pointSlots p) := by
  have hpoint : Below (2 * s.par.p) (pointSlots p) := below_pointSlots hp
  have hreq : Requires s.par (ptMov d q c) ⟨pointSlots p, fp2Slots a24plus ++ fp2Slots c24⟩ :=
    ⟨hpoint, below_append (below_fp2Slots ha) (below_fp2Slots hc)⟩
  have h8 := eight_p_le_r hadm
  refine ⟨_, rfl, complete_groupHolds hsrc hreq hready rfl rfl fun v hv => (hpoint v hv).trans_le ?_⟩
  omega

/-- Settles O46: FP_MUL is the reducer of the product, MP_ADD the sum modulo `R`, and PT_DBL with `e = 0` a copy. -/
theorem pseudoInstructions : Obligations.PseudoInstructions :=
  ⟨fun _ _ _ _ _ => fpToMont_result, fun _ _ _ _ _ => fpFromMont_result, fun _ _ _ _ _ => mpMov_result,
    fun _ _ _ _ _ _ _ => ptMov_result⟩

end Sys2Proof.Machine

end

section
/-! PROOF. The multiprecision engine (40_multiprecision.md): the results of MP_ADD, MP_SUB, MP_SUBC and MP_MUL, and the
operand-scanning loop. -/

namespace Sys2Proof.Machine

open Sys2Proof.Claims

/-! ### The whole effect of a completion in range (R30, R31) -/

section Completion

variable {s : State} {i : Instr} {op : Sources → Effect} {src : Sources} {vs : List Nat}
variable (hsrc : s.sourcesOf i = src) (hreq : Requires s.par i src) (hvs : (op src).dsts = vs)
  (hlen : vs.length = i.dst.group.width)

include hsrc hreq hvs hlen

/-- In range, a completion changes nothing but its destination group, CF and the hidden temporaries. -/
theorem complete_commandFrame : CommandFrame s (s.complete i op) i.dst.base i.dst.group.width := by
  have hslots : (s.complete i op).slots = writeSlots s.par s.slots i.dst.base vs := by
    rw [complete_of_requires hsrc hreq, State.retire_slots, hvs]
  have hkept : OtherSlotsKept s (s.complete i op) i.dst.base i.dst.group.width := by
    rw [OtherSlotsKept, hslots]
    exact ⟨writeSlots_length .., fun k hk => writeSlots_outside _ _ _ _ _ (hlen ▸ hk)⟩
  simp [CommandFrame, hkept]

/-- A command in range answers a state with the values and the CF of its rule, takes no free value, and keeps the rest. -/
theorem exec_result (hready : Ready s i) (hexec : exec i s = .next (s.complete i op)) (hlt : Below s.par.r vs) :
    ∃ t, exec i s = .next t ∧ GroupHolds t i.dst.base vs ∧ t.cf = (op src).cf.getD s.cf ∧
      CommandFrame s t i.dst.base i.dst.group.width ∧ t.draws = s.draws := by
  refine ⟨_, hexec, complete_groupHolds hsrc hreq hready hvs hlen hlt, complete_cf hsrc hreq,
    complete_commandFrame hsrc hreq hvs hlen, ?_⟩
  rw [complete_of_requires hsrc hreq, State.retire_draws]

end Completion

/-! ### Operands and results of one and two slots (R13, R22, R100) -/

theorem widthModulus_pos (par : Params) (wd : Width) : 0 < widthModulus par wd := by
  cases wd with
  | single => exact r_pos par
  | double => exact Nat.mul_pos (r_pos par) (r_pos par)

/-- Two digits in base `r` are below `r²`. -/
theorem lo_add_hi_mul_lt {r lo hi : Nat} (hlo : lo < r) (hhi : hi < r) : lo + hi * r < r * r := by
  calc lo + hi * r < r + hi * r := Nat.add_lt_add_right hlo _
    _ = (hi + 1) * r := by ring
    _ ≤ r * r := Nat.mul_le_mul_right r hhi

theorem below_dwSlots {par : Params} {v : Nat} (h : v < par.r * par.r) : Below par.r (dwSlots par v) := by
  simp [Below, dwSlots, Nat.mod_lt _ (r_pos par), Nat.div_lt_of_lt_mul h]

theorem below_mpSlots {par : Params} {wd : Width} {v : Nat} (h : v < widthModulus par wd) :
    Below par.r (mpSlots par wd v) := by
  cases wd with
  | single => exact List.forall_mem_singleton.2 h
  | double => exact below_dwSlots h

theorem mpSlots_length (par : Params) (wd : Width) (v : Nat) : (mpSlots par wd v).length = wd.group.width := by
  cases wd <;> rfl

/-! ### Carry, borrow and wrap-around (R100, R101) -/

/-- The sum of two values below `m` is below `2m`, so its quotient by `m` is the carry. -/
theorem carryOut_eq_true {m a b : Nat} (ha : a < m) (hb : b < m) : carryOut m a b = true ↔ m ≤ a + b := by
  rw [carryOut, decide_eq_true_iff, Nat.div_eq_iff (by omega)]
  omega

/-- `wrapSub` is the difference of the integers, reduced. -/
theorem cast_wrapSub {m a b : Nat} (h : b ≤ a + m) : (wrapSub m a b : Int) = ((a : Int) - b) % m := by
  rw [wrapSub, Int.natCast_mod, Nat.cast_sub h, Nat.cast_add, add_sub_right_comm, Int.add_emod_right]

theorem wrapSub_eq {m a b d : Nat} (h : b ≤ a + m) (hd : (d : Int) = ((a : Int) - b) % m) : wrapSub m a b = d :=
  Int.natCast_inj.1 ((cast_wrapSub h).trans hd.symm)

theorem wrapSub_lt {m : Nat} (a b : Nat) (hm : 0 < m) : wrapSub m a b < m := Nat.mod_lt _ hm

/-! ### MP_ADD and MP_SUB, both widths at once (R100, R101) -/

section BothWidths

variable {s : State} {wd : Width} {rd rs1 rs2 : SlotIx} {src : Sources} {a b : Nat}

theorem exec_mpAdd_result (hready : Ready s (.mpAdd wd rd rs1 rs2)) (hsrc : s.sourcesOf (.mpAdd wd rd rs1 rs2) = src)
    (ha : mpOf s.par wd src.rs1 = a) (hb : mpOf s.par wd src.rs2 = b)
    (ham : a < widthModulus s.par wd) (hbm : b < widthModulus s.par wd) :
    ∃ t, exec (.mpAdd wd rd rs1 rs2) s = .next t ∧
      GroupHolds t rd (mpSlots s.par wd ((a + b) % widthModulus s.par wd)) ∧
      (t.cf = true ↔ widthModulus s.par wd ≤ a + b) ∧ CommandFrame s t rd wd.group.width ∧ t.draws = s.draws := by
  subst ha hb
  obtain ⟨t, hexec, hgroup, hcf, hrest⟩ := exec_result hsrc trivial rfl (mpSlots_length _ _ _) hready rfl
    (below_mpSlots (Nat.mod_lt _ (widthModulus_pos s.par wd)))
  exact ⟨t, hexec, hgroup, by rw [hcf]; exact carryOut_eq_true ham hbm, hrest⟩

theorem exec_mpSub_result {d : Nat} (hready : Ready s (.mpSub wd rd rs1 rs2))
    (hsrc : s.sourcesOf (.mpSub wd rd rs1 rs2) = src)
    (ha : mpOf s.par wd src.rs1 = a) (hb : mpOf s.par wd src.rs2 = b) (hbm : b < widthModulus s.par wd)
    (hd : (d : Int) = ((a : Int) - b) % (widthModulus s.par wd : Int)) :
    ∃ t, exec (.mpSub wd rd rs1 rs2) s = .next t ∧ GroupHolds t rd (mpSlots s.par wd d) ∧
      (t.cf = true ↔ a < b) ∧ CommandFrame s t rd wd.group.width ∧ t.draws = s.draws := by
  obtain rfl := wrapSub_eq (by omega) hd
  subst ha hb
  obtain ⟨t, hexec, hgroup, hcf, hrest⟩ := exec_result hsrc trivial rfl (mpSlots_length _ _ _) hready rfl
    (below_mpSlots (wrapSub_lt _ _ (widthModulus_pos s.par wd)))
  exact ⟨t, hexec, hgroup, by rw [hcf]; exact decide_eq_true_iff, hrest⟩

end BothWidths

/-- Settles O34: the two clauses are the two widths of `exec_mpAdd_result`. -/
theorem mpAddResultAndCarry : Obligations.MpAddResultAndCarry := by
  refine ⟨fun s rd rs1 rs2 a b hready ha hb hsrc => ?single, ?double⟩
  case single => exact exec_mpAdd_result hready hsrc rfl rfl ha hb
  case double =>
    rintro s rd rs1 rs2 a0 a1 b0 b1 _ _ _ hready ha0 ha1 hb0 hb1 hsrc rfl rfl rfl
    exact exec_mpAdd_result hready hsrc rfl rfl (lo_add_hi_mul_lt ha0 ha1) (lo_add_hi_mul_lt hb0 hb1)

/-- Settles O35: the two clauses are the two widths of `exec_mpSub_result`. -/
theorem mpSubResultAndBorrow : Obligations.MpSubResultAndBorrow := by
  refine ⟨fun s rd rs1 rs2 a b d hready _ hb hsrc hd => ?single, ?double⟩
  case single => exact exec_mpSub_result hready hsrc rfl rfl hb hd
  case double =>
    rintro s rd rs1 rs2 a0 a1 b0 b1 _ _ _ d hready - - hb0 hb1 hsrc rfl rfl rfl hd
    exact exec_mpSub_result hready hsrc rfl rfl (lo_add_hi_mul_lt hb0 hb1) hd

/-! ### MP_SUBC and MP_MUL (R102, R103) -/

theorem correctionMultiple_eq (par : Params) (sel : Correction) :
    correctionMultiple par sel = if sel = .twoP then 2 * par.p else 4 * par.p := by
  cases sel <;> rfl

/-- Settles O36: the corrected difference is `wrapSub` of `a + K` and `b`, and the rule gives no CF. -/
theorem mpSubcResult : Obligations.MpSubcResult := by
  intro s sel rd rs1 rs2 a b k d hready _ hb hsrc hk hd
  obtain rfl : correctionMultiple s.par sel = k := (correctionMultiple_eq s.par sel).trans hk.symm
  have hdiff : wrapSub s.par.r (a + correctionMultiple s.par sel) b = d :=
    wrapSub_eq (by omega) (by rw [hd, Nat.cast_add, add_sub_right_comm])
  have hlt : Below s.par.r [d] := by simpa [Below, ← hdiff] using wrapSub_lt _ _ (r_pos s.par)
  exact exec_result hsrc trivial (congrArg (fun v => [v]) hdiff) rfl hready rfl hlt

/-- Settles O37: the product of two values below `R` is below `R²`, and its two slots are its remainder and quotient by `R`. -/
theorem mpMulResult : Obligations.MpMulResult := by
  intro s rd rs1 rs2 a b hready ha hb hsrc
  obtain ⟨t, hexec, hgroup, hrest⟩ := exec_result hsrc trivial rfl rfl hready rfl
    (below_dwSlots (Nat.mul_lt_mul'' ha hb))
  exact ⟨t, _, _, hexec, hgroup, Nat.mod_add_div' _ _, hrest⟩

/-! ### The operand-scanning loop (R103) -/

@[simp] theorem digitsOf_zero (w n : Nat) : digitsOf w n 0 = List.replicate n 0 := by
  induction n with
  | zero => rfl
  | succ n ih => simp [digitsOf, ih, List.replicate_succ]

/-- The lowest digit of a sum with a multiple of the base, and what it hands on to the digits above. -/
theorem digitsOf_add_mul (w n t q : Nat) :
    digitsOf w (n + 1) (t + 2 ^ w * q) = t % 2 ^ w :: digitsOf w n (t / 2 ^ w + q) := by
  rw [digitsOf, Nat.add_mul_mod_self_left, Nat.add_mul_div_left _ _ (Nat.two_pow_pos w)]

/-- A product of `a < m` and `b < r` leaves room for an addend below `r` and a carry below `m`. -/
theorem multiplyAccumulate_lt {m r a b c k : Nat} (ha : a < m) (hb : b < r) (hc : c < r) (hk : k < m) :
    c + a * b + k < m * r := by
  obtain ⟨m, rfl⟩ := Nat.exists_eq_succ_of_ne_zero (Nat.ne_zero_of_lt ha)
  obtain ⟨r, rfl⟩ := Nat.exists_eq_succ_of_ne_zero (Nat.ne_zero_of_lt hb)
  have hab : a * b ≤ m * r := Nat.mul_le_mul (by omega) (by omega)
  rw [Nat.succ_mul, Nat.mul_succ]
  omega

/-- A value of `n + 1` digits has `n` digits above its lowest. -/
theorem div_lt_of_lt_pow_succ {w n v : Nat} (h : v < 2 ^ ((n + 1) * w)) : v / 2 ^ w < 2 ^ (n * w) :=
  Nat.div_lt_of_lt_mul (by rwa [← Nat.pow_add, Nat.add_comm, ← Nat.succ_mul])

/-- One row adds `a` times the other factor and the carry to the accumulator's window, exactly. -/
theorem schoolbookRow_digitsOf {w n a b c carry : Nat} (ha : a < 2 ^ w) (hb : b < 2 ^ (n * w)) (hc : c < 2 ^ (n * w))
    (hk : carry < 2 ^ w) :
    schoolbookRow w a (digitsOf w n b) (digitsOf w n c) carry = digitsOf w (n + 1) (c + a * b + carry) := by
  induction n generalizing b c carry with
  | zero =>
    obtain rfl : b = 0 := by simpa using hb
    obtain rfl : c = 0 := by simpa using hc
    simp [digitsOf, schoolbookRow, Nat.mod_eq_of_lt hk]
  | succ n ih =>
    have hpos : 0 < 2 ^ w := Nat.two_pow_pos w
    have hcarry : (c % 2 ^ w + a * (b % 2 ^ w) + carry) / 2 ^ w < 2 ^ w :=
      Nat.div_lt_of_lt_mul (multiplyAccumulate_lt ha (Nat.mod_lt _ hpos) (Nat.mod_lt _ hpos) hk)
    have hsplit : c + a * b + carry =
        c % 2 ^ w + a * (b % 2 ^ w) + carry + 2 ^ w * (c / 2 ^ w + a * (b / 2 ^ w)) := by
      conv_lhs => rw [← Nat.mod_add_div c (2 ^ w), ← Nat.mod_add_div b (2 ^ w)]
      ring
    rw [hsplit, digitsOf_add_mul, Nat.add_comm (_ / 2 ^ w),
      ← ih (div_lt_of_lt_pow_succ hb) (div_lt_of_lt_pow_succ hc) hcarry]
    rfl

/-- The loop adds the product to the accumulator's window: each row settles the lowest digit and hands on the rest. -/
theorem schoolbookLoop_digitsOf {w n m a b acc : Nat} (ha : a < 2 ^ (m * w)) (hb : b < 2 ^ (n * w))
    (hacc : acc < 2 ^ (n * w)) :
    schoolbookLoop w (digitsOf w n b) (digitsOf w m a) (digitsOf w n acc) = digitsOf w (m + n) (acc + a * b) := by
  induction m generalizing a acc with
  | zero =>
    obtain rfl : a = 0 := by simpa using ha
    simp [digitsOf, schoolbookLoop]
  | succ m ih =>
    have hpos : 0 < 2 ^ w := Nat.two_pow_pos w
    have hdigit : a % 2 ^ w < 2 ^ w := Nat.mod_lt _ hpos
    have hrest : (acc + a % 2 ^ w * b) / 2 ^ w < 2 ^ (n * w) :=
      Nat.div_lt_of_lt_mul (multiplyAccumulate_lt hdigit hb hacc hpos)
    have hsplit : acc + a * b = acc + a % 2 ^ w * b + 2 ^ w * (a / 2 ^ w * b) := by
      conv_lhs => rw [← Nat.mod_add_div a (2 ^ w)]
      ring
    rw [Nat.succ_add, hsplit, digitsOf_add_mul, ← ih (div_lt_of_lt_pow_succ ha) hrest, digitsOf, schoolbookLoop,
      schoolbookRow_digitsOf hdigit hb hacc hpos]
    rfl

/-- Settles O52: the loop starts with the accumulator 0. -/
theorem schoolbookLoopIsTheProduct : Obligations.SchoolbookLoopIsTheProduct := by
  intro w n a b ha hb
  have h := schoolbookLoop_digitsOf ha hb (Nat.two_pow_pos (n * w))
  rwa [digitsOf_zero, Nat.zero_add, ← Nat.two_mul] at h

end Sys2Proof.Machine

end

section
/-! PROOF. The prime field layer (41_prime_field.md): field addition and subtraction, Montgomery reduction and its
word-by-word form, the default inversion chain, and the results of FP_MUL, FP_SQR, FP_RDC and FP_INV. -/

namespace Sys2Proof.Machine

open Sys2Proof.Claims

/-! ### Field addition and subtraction (R122, R123) -/

section AddSub

variable {par : Params} {a b : Nat}

/-- The correction of a sum takes `2p` off at most once, and leaves the working range only if an operand has left it. -/
theorem fpAdd_spec (ha : a < 2 * par.p) (hb : b < 2 * par.p) :
    fpAdd par a b < 2 * par.p ∧ fpAdd par a b ≡ a + b [MOD par.p] := by
  rw [fpAdd, Params.twoP]
  split
  next h => exact ⟨h, .refl _⟩
  next h =>
    refine ⟨by omega, ?_⟩
    calc a + b - 2 * par.p ≡ a + b - 2 * par.p + 2 * par.p [MOD par.p] := (Nat.add_mul_mod_self_right ..).symm
      _ = a + b := by omega

/-- The correction of a difference brings `2p` in exactly when it would be negative. -/
theorem fpSub_spec (ha : a < 2 * par.p) (hb : b < 2 * par.p) :
    fpSub par a b < 2 * par.p ∧ fpSub par a b + b ≡ a [MOD par.p] := by
  rw [fpSub, Params.twoP]
  split
  next h =>
    refine ⟨by omega, ?_⟩
    calc a + 2 * par.p - b + b = a + 2 * par.p := by omega
      _ ≡ a [MOD par.p] := Nat.add_mul_mod_self_right ..
  next h => exact ⟨by omega, by rw [Nat.sub_add_cancel (by omega)]⟩

@[simp] theorem fpSub_self (par : Params) (a : Nat) : fpSub par a a = 0 := by simp [fpSub]

/-- Settles O49: the cases of R122 and R123 are the model's, with the two branches of each exchanged. -/
theorem fieldAddAndSubtract : Obligations.FieldAddAndSubtract := by
  intro par a b ha hb
  obtain ⟨hadd, haddmod⟩ := fpAdd_spec ha hb
  obtain ⟨hsub, hsubmod⟩ := fpSub_spec ha hb
  have haddeq : fpAdd par a b = if 2 * par.p ≤ a + b then a + b - 2 * par.p else a + b := by
    rw [fpAdd, Params.twoP, ← ite_not]
    simp only [not_lt]
  have hsubeq : fpSub par a b = if b ≤ a then a - b else a + 2 * par.p - b := by
    rw [fpSub, Params.twoP, ← ite_not]
    simp only [not_lt]
  exact ⟨haddeq, hadd, haddmod, hsubeq, hsub, hsubmod, fpSub_self par a⟩

end AddSub

/-! ### Montgomery reduction (R120, R124, R126) -/

section Montgomery

variable {par : Params} (hadm : par.admitted)

include hadm

/-- `p` is invertible modulo `R`, so one factor below `R` at most makes the sum divisible. -/
theorem montgomeryFactor_unique {t m m' : Nat} (hm : m < par.r) (hm' : m' < par.r) (h : par.r ∣ t + m * par.p)
    (h' : par.r ∣ t + m' * par.p) : m = m' := by
  have hsum : t + m * par.p ≡ t + m' * par.p [MOD par.r] :=
    (Nat.modEq_zero_iff_dvd.2 h).trans (Nat.modEq_zero_iff_dvd.2 h').symm
  have hfactor : m ≡ m' [MOD par.r] :=
    (hsum.add_left_cancel' t).cancel_right_of_coprime (coprime_p_r hadm).symm
  exact hfactor.eq_of_lt_of_lt hm hm'

theorem r_dvd_add_montgomeryFactor (t : Nat) : par.r ∣ t + montgomeryFactor par t * par.p :=
  ⟨redc par t, by rw [← redc_mul_r (p_odd_of_admitted hadm), Nat.mul_comm]⟩

/-- Whatever factor below `R` makes the sum divisible, the quotient is REDC's value. -/
theorem redc_eq_div {t m : Nat} (hm : m < par.r) (h : par.r ∣ t + m * par.p) :
    redc par t = (t + m * par.p) / par.r := by
  rw [redc, montgomeryFactor_unique hadm (montgomeryFactor_lt par t) hm (r_dvd_add_montgomeryFactor hadm t) h]

/-- The headroom of R7: a product of values in the working range is a value REDC takes. -/
theorem mul_lt_pr {a b : Nat} (ha : a < 2 * par.p) (hb : b < 2 * par.p) : a * b < par.pr := by
  have h8 := eight_p_le_r hadm
  calc a * b < 2 * par.p * (2 * par.p) := Nat.mul_lt_mul'' ha hb
    _ = par.p * (4 * par.p) := by ring
    _ ≤ par.pr := Nat.mul_le_mul_left _ (by omega)

theorem fpMul_lt_two_p {a b : Nat} (ha : a < 2 * par.p) (hb : b < 2 * par.p) : fpMul par a b < 2 * par.p :=
  redc_lt_two_p hadm (mul_lt_pr hadm ha hb)

/-- A product of Montgomery forms is the Montgomery form of the product. -/
theorem fpMul_montgomeryForm {a b x y : Nat} (ha : a ≡ x * par.r [MOD par.p]) (hb : b ≡ y * par.r [MOD par.p]) :
    fpMul par a b ≡ x * y * par.r [MOD par.p] := by
  refine Nat.ModEq.cancel_right_of_coprime (coprime_p_r hadm) ?_
  calc fpMul par a b * par.r ≡ a * b [MOD par.p] := redc_mul_r_modEq hadm _
    _ ≡ x * par.r * (y * par.r) [MOD par.p] := ha.mul hb
    _ = x * y * par.r * par.r := by ring

end Montgomery

/-- Settles O47: `montgomeryFactor` is the unique factor, and the properties are those of the exact division by `R`. -/
theorem montgomeryReduction : Obligations.MontgomeryReduction := by
  refine fun par hadm => ⟨fun t ht => ⟨?unique, ?quotient, redc_lt_two_p hadm ht, redc_mul_r_modEq hadm t,
    redc_eq_zero hadm, ?small⟩, fun a b x y _ _ hx hy => fpMul_montgomeryForm hadm hx hy⟩
  case unique =>
    have hdvd := r_dvd_add_montgomeryFactor hadm t
    exact ⟨_, ⟨montgomeryFactor_lt par t, Nat.mod_eq_zero_of_dvd hdvd⟩, fun m hm =>
      montgomeryFactor_unique hadm hm.1 (montgomeryFactor_lt par t) (Nat.dvd_of_mod_eq_zero hm.2) hdvd⟩
  case quotient => exact fun m hm h => redc_eq_div hadm hm (Nat.dvd_of_mod_eq_zero h)
  case small =>
    intro htp
    have htr : t < par.r := by
      have := eight_p_le_r hadm
      omega
    refine ⟨redc_le_p hadm htr, fun he => ?_⟩
    obtain ⟨hdvd, hne⟩ := (redc_eq_p hadm htr).1 he
    exact ⟨Nat.mod_eq_zero_of_dvd hdvd, hne⟩

/-! ### The word-by-word reduction (R121) -/

/-- The factor of a round, from the lowest `k` bits of `q` alone, clears them. -/
theorem two_pow_dvd_add_round {p : Nat} (hp : p % 2 = 1) (k q : Nat) :
    2 ^ k ∣ q + q % 2 ^ k * negInverse p k % 2 ^ k * p := by
  have hfactor : q % 2 ^ k * negInverse p k % 2 ^ k ≡ q * negInverse p k [MOD 2 ^ k] :=
    (Nat.mod_modEq _ _).trans ((Nat.mod_modEq q _).mul_right _)
  refine Nat.modEq_zero_iff_dvd.1 ?_
  calc q + q % 2 ^ k * negInverse p k % 2 ^ k * p
      ≡ q + q * negInverse p k * p [MOD 2 ^ k] := (hfactor.mul_right p).add_left q
    _ = q * (p * negInverse p k + 1) := by ring
    _ ≡ 0 [MOD 2 ^ k] := Nat.modEq_zero_iff_dvd.2 ((negInverse_spec hp k).1.mul_left q)

/-- `k` rounds from digit `i` on add a `k`-digit multiple of `p` at that digit, and clear the `k` digits. -/
theorem redcWordLoop_spec {par : Params} (hp : par.p % 2 = 1) (k : Nat) {i t : Nat} (ht : 2 ^ (i * par.w) ∣ t) :
    ∃ m, m < 2 ^ (k * par.w) ∧ redcWordLoop par k i t = t + m * par.p * 2 ^ (i * par.w) ∧
      2 ^ ((i + k) * par.w) ∣ redcWordLoop par k i t := by
  induction k generalizing i t with
  | zero => exact ⟨0, by simp, by simp [redcWordLoop], by simpa [redcWordLoop] using ht⟩
  | succ k ih =>
    obtain ⟨q, rfl⟩ := ht
    have hdigit : 2 ^ (i * par.w) * q / 2 ^ (i * par.w) = q := Nat.mul_div_cancel_left q (Nat.two_pow_pos _)
    have hplace : 2 ^ ((i + 1) * par.w) = 2 ^ (i * par.w) * 2 ^ par.w := by rw [Nat.succ_mul, Nat.pow_add]
    have hround : q % 2 ^ par.w * negInverse par.p par.w % 2 ^ par.w < 2 ^ par.w := Nat.mod_lt _ (Nat.two_pow_pos _)
    have hclear := two_pow_dvd_add_round hp par.w q
    rw [redcWordLoop, hdigit]
    set m₀ := q % 2 ^ par.w * negInverse par.p par.w % 2 ^ par.w
    have hcleared : 2 ^ ((i + 1) * par.w) ∣ 2 ^ (i * par.w) * q + m₀ * par.p * 2 ^ (i * par.w) := by
      rw [hplace, Nat.mul_comm _ (2 ^ (i * par.w)), ← Nat.mul_add]
      exact Nat.mul_dvd_mul_left _ hclear
    obtain ⟨m, hm, hloop, hdvd⟩ := ih hcleared
    refine ⟨m₀ + 2 ^ par.w * m, ?_, ?_, by rwa [show i + (k + 1) = i + 1 + k by omega]⟩
    · calc m₀ + 2 ^ par.w * m < 2 ^ par.w * (m + 1) := by rw [Nat.mul_succ]; omega
        _ ≤ 2 ^ par.w * 2 ^ (k * par.w) := Nat.mul_le_mul_left _ hm
        _ = 2 ^ ((k + 1) * par.w) := by rw [← Nat.pow_add, Nat.succ_mul, Nat.add_comm]
    · rw [hloop, hplace]
      ring

/-- Settles O48: the rounds together add a multiple of `p` below `R·p` that clears all `N` digits, and only one does. -/
theorem wordByWordReductionAgrees : Obligations.WordByWordReductionAgrees := by
  intro par t hadm _
  obtain ⟨m, hm, hloop, hdvd⟩ := redcWordLoop_spec (p_odd_of_admitted hadm) par.n (i := 0) (t := t) (by simp)
  rw [Nat.zero_mul, Nat.pow_zero, Nat.mul_one] at hloop
  rw [Nat.zero_add, hloop] at hdvd
  rw [redc_eq_div hadm hm hdvd, redcWords, hloop, Params.r]

/-! ### The default inversion chain (R131) -/

section DefaultChain

variable {e : Nat}

/-- Left-to-right exponentiation: the `k` rounds append the `k` lowest bits of `e` to the exponent of temporary 0. -/
theorem foldl_exponents_chainForBits (k x : Nat) :
    (chainForBits e k).foldl ChainStep.exponents [x, 1] = [x * 2 ^ k + e % 2 ^ k, 1] := by
  induction k generalizing x with
  | zero => simp [chainForBits, Nat.mod_one]
  | succ k ih =>
    have hround : (chainForBits e (k + 1)).foldl ChainStep.exponents [x, 1] =
        (chainForBits e k).foldl ChainStep.exponents [2 * x + (e.testBit k).toNat, 1] := by
      cases h : e.testBit k <;> simp [chainForBits, h, ChainStep.exponents]
    rw [hround, ih, Nat.mod_pow_succ, ← Nat.toNat_testBit]
    congr 1
    ring

theorem mem_chainForBits {k : Nat} {st : ChainStep} (h : st ∈ chainForBits e k) :
    st = .sqr 0 0 ∨ st = .mul 0 0 1 := by
  induction k with
  | zero => simp [chainForBits] at h
  | succ k ih =>
    simp only [chainForBits, List.mem_cons, List.mem_append] at h
    obtain hsqr | hmul | hrest := h
    · exact .inl hsqr
    · split at hmul
      · exact .inr (List.mem_singleton.1 hmul)
      · cases hmul
    · exact ih hrest

/-- One squaring for each bit. -/
theorem count_sqr_chainForBits (k : Nat) : ((chainForBits e k).filter (· = .sqr 0 0)).length = k := by
  induction k with
  | zero => rfl
  | succ k ih => cases h : e.testBit k <;> simp [chainForBits, h, ih]

/-- One multiplication for each 1 bit. -/
theorem count_mul_chainForBits (k : Nat) : ((chainForBits e k).filter (· = .mul 0 0 1)).length =
    ((List.range k).filter e.testBit).length := by
  induction k with
  | zero => rfl
  | succ k ih => cases h : e.testBit k <;> simp [chainForBits, h, ih, List.range_succ]

/-- The top bit, which the chain starts from. -/
theorem two_pow_log2_add_mod (he : e ≠ 0) : 2 ^ e.log2 + e % 2 ^ e.log2 = e := by
  have hle : 2 ^ e.log2 ≤ e := Nat.log2_self_le he
  have hlt : e < 2 ^ (e.log2 + 1) := Nat.lt_log2_self
  rw [Nat.pow_succ] at hlt
  rw [Nat.mod_eq_sub_mod hle, Nat.mod_eq_of_lt (by omega)]
  omega

end DefaultChain

/-- Settles O59: temporary 0 starts with the top bit of `p − 2`, and each further bit is a squaring, and a multiplication
by the operand if it is 1. -/
theorem defaultChainIsWellFormed : Obligations.DefaultChainIsWellFormed := by
  intro p hp
  have he : p - 2 ≠ 0 := by omega
  refine ⟨?bounds, ?exponent, count_sqr_chainForBits _, ?multiplications, fun st => mem_chainForBits⟩
  case bounds =>
    refine List.all_eq_true.2 fun st hst => ?_
    obtain rfl | rfl := mem_chainForBits hst <;> rfl
  case exponent =>
    rw [chainExponents, defaultChain, show List.replicate 2 1 = [1, 1] from rfl, foldl_exponents_chainForBits,
      Nat.one_mul, two_pow_log2_add_mod he]
    rfl
  case multiplications =>
    have htop : (p - 2).testBit (p - 2).log2 = true := Nat.testBit_log2 he
    rw [defaultChain, count_mul_chainForBits, List.range_succ, List.filter_append, List.length_append]
    simp [htop]

/-! ### Residues (R12) -/

section Residues

variable {par : Params} (hadm : par.admitted)

include hadm

theorem r_mul_inv : (par.r : ZMod par.p) * (par.r : ZMod par.p)⁻¹ = 1 :=
  ZMod.coe_mul_inv_eq_one par.r (coprime_p_r hadm).symm

theorem p_prime_of_admitted : par.p.Prime := by
  obtain ⟨-, -, -, -, -, hprime, -⟩ := hadm
  exact hprime

theorem three_le_p_of_admitted : 3 ≤ par.p := by
  obtain ⟨-, -, -, -, -, -, hmod, -⟩ := hadm
  omega

/-- Modulo `p`, the reducer takes a value to the residue it represents. -/
theorem cast_redc (t : Nat) : (redc par t : ZMod par.p) = residue par t := by
  have hmod : (redc par t : ZMod par.p) * par.r = t := by
    exact_mod_cast (ZMod.natCast_eq_natCast_iff _ _ _).2 (redc_mul_r_modEq hadm t)
  rw [residue, ← hmod, mul_assoc, r_mul_inv hadm, mul_one]

/-- `FPMUL` multiplies the residues. -/
theorem residue_fpMul (a b : Nat) : residue par (fpMul par a b) = residue par a * residue par b := by
  rw [residue, fpMul, cast_redc hadm]
  simp only [residue, Nat.cast_mul]
  ring

theorem residue_eq_zero {a : Nat} : residue par a = 0 ↔ par.p ∣ a := by
  rw [← ZMod.natCast_eq_zero_iff]
  refine ⟨fun h => ?_, fun h => by rw [residue, h, zero_mul]⟩
  calc (a : ZMod par.p) = residue par a * par.r := by
        rw [residue, mul_assoc, mul_comm _ (par.r : ZMod par.p), r_mul_inv hadm, mul_one]
    _ = 0 := by rw [h, zero_mul]

end Residues

/-! ### The inversion chain (R130, R132) -/

section Chain

variable {par : Params} {ts es : List Nat} {st : ChainStep}

theorem forall_getD {P : Nat → Prop} (hts : ∀ v ∈ ts, P v) (hzero : P 0) (j : Nat) : P (ts.getD j 0) := by
  by_cases hj : j < ts.length
  · exact List.getD_eq_getElem ts 0 hj ▸ hts _ (List.getElem_mem hj)
  · exact (List.getD_eq_default ts 0 (Nat.le_of_not_lt hj)).symm ▸ hzero

/-- What holds of 0, of the operand, and of a product when it holds of the factors, holds of every temporary. -/
theorem forall_runChain {P : Nat → Prop} (hzero : P 0) (hmul : ∀ x y, P x → P y → P (fpMul par x y)) {a : Nat}
    (ha : P a) : ∀ v ∈ runChain par a, P v := by
  refine List.foldlRecOn (motive := fun ts => ∀ v ∈ ts, P v) par.chain (chainStep par)
    (fun v hv => List.eq_of_mem_replicate hv ▸ ha) fun ts hts st _ v hv => ?_
  have hget := forall_getD hts hzero
  cases st with
  | sqr d x => exact (List.mem_or_eq_of_mem_set hv).elim (hts v) fun h => h ▸ hmul _ _ (hget x) (hget x)
  | mul d x y => exact (List.mem_or_eq_of_mem_set hv).elim (hts v) fun h => h ▸ hmul _ _ (hget x) (hget y)

@[simp] theorem chainStep_length (par : Params) (ts : List Nat) (st : ChainStep) :
    (chainStep par ts st).length = ts.length := by
  cases st <;> exact List.length_set

/-- The temporaries represent the powers of `u` that the exponents name (R130). -/
def HoldPowers (par : Params) (u : ZMod par.p) (ts es : List Nat) : Prop :=
  ts.map (residue par) = es.map (u ^ ·)

theorem residue_getD {u : ZMod par.p} (h : HoldPowers par u ts es) {j : Nat} (hj : j < ts.length) :
    residue par (ts.getD j 0) = u ^ es.getD j 0 := by
  have hlen : ts.length = es.length := by simpa using congrArg List.length h
  have hget := List.getElem_of_eq h (i := j) (by simpa using hj)
  rwa [List.getElem_map, List.getElem_map, ← List.getD_eq_getElem ts 0 hj,
    ← List.getD_eq_getElem es 0 (hlen ▸ hj)] at hget

variable (hadm : par.admitted)

include hadm

/-- A step does to the powers what R130 does to the exponents: squaring doubles, multiplying adds. -/
theorem chainStep_holdPowers {u : ZMod par.p} (h : HoldPowers par u ts es) (hst : st.inBounds ts.length = true) :
    HoldPowers par u (chainStep par ts st) (ChainStep.exponents es st) := by
  unfold HoldPowers
  cases st with
  | sqr d x =>
    simp only [ChainStep.inBounds, Bool.and_eq_true, decide_eq_true_eq] at hst
    obtain ⟨-, hx⟩ := hst
    have hsqr : residue par (fpSqr par (ts.getD x 0)) = u ^ (2 * es.getD x 0) := by
      rw [two_mul, pow_add, ← residue_getD h hx]
      exact residue_fpMul hadm _ _
    rw [chainStep, ChainStep.exponents, List.map_set, List.map_set, h, hsqr]
  | mul d x y =>
    simp only [ChainStep.inBounds, Bool.and_eq_true, decide_eq_true_eq] at hst
    obtain ⟨⟨-, hx⟩, hy⟩ := hst
    have hmul : residue par (fpMul par (ts.getD x 0) (ts.getD y 0)) = u ^ (es.getD x 0 + es.getD y 0) := by
      rw [pow_add, ← residue_getD h hx, ← residue_getD h hy]
      exact residue_fpMul hadm _ _
    rw [chainStep, ChainStep.exponents, List.map_set, List.map_set, h, hmul]

theorem foldl_chainStep_holdPowers {u : ZMod par.p} (chain : List ChainStep) (h : HoldPowers par u ts es)
    (hchain : chain.all (ChainStep.inBounds ts.length) = true) :
    HoldPowers par u (chain.foldl (chainStep par) ts) (chain.foldl ChainStep.exponents es) := by
  induction chain generalizing ts es with
  | nil => exact h
  | cons st chain ih =>
    rw [List.all_cons, Bool.and_eq_true] at hchain
    obtain ⟨hst, hrest⟩ := hchain
    exact ih (chainStep_holdPowers hadm h hst) (by rwa [chainStep_length])

theorem chainWf_of_admitted : par.chainWf := by
  obtain ⟨-, -, -, -, -, -, -, -, -, -, -, h⟩ := hadm
  exact h

/-- A well-formed chain raises the residue to `p − 2`. -/
theorem residue_runChain (a : Nat) : residue par ((runChain par a).getD 0 0) = residue par a ^ (par.p - 2) := by
  obtain ⟨htemps, hchain, hexp⟩ := chainWf_of_admitted hadm
  have hstart : HoldPowers par (residue par a) (List.replicate par.temps a) (List.replicate par.temps 1) := by
    simp [HoldPowers]
  have hend := foldl_chainStep_holdPowers hadm par.chain hstart (by rwa [List.length_replicate])
  have hlen : (runChain par a).length = par.temps := by
    refine List.foldlRecOn (motive := fun ts => ts.length = par.temps) par.chain (chainStep par)
      List.length_replicate fun ts hts st _ => ?_
    rwa [chainStep_length]
  rw [← hexp]
  exact residue_getD hend (by rw [← runChain, hlen]; omega)

end Chain

/-! ### Results of the commands (R127, R128, R129, R132) -/

/-- A prime-field command in range: one slot with a value in the working range, CF as it was. -/
theorem exec_fp_result {s : State} {i : Instr} {op : Sources → Effect} {src : Sources} {v : Nat} (hadm : s.par.admitted)
    (hready : Ready s i) (hsrc : s.sourcesOf i = src) (hreq : Requires s.par i src)
    (hexec : exec i s = .next (s.complete i op)) (hwidth : i.dst.group.width = 1) (hval : (op src).dsts = [v])
    (hcf : (op src).cf = none) (hv : v < 2 * s.par.p) :
    ∃ t, exec i s = .next t ∧ GroupHolds t i.dst.base [v] ∧ v < 2 * s.par.p ∧ t.cf = s.cf ∧
      CommandFrame s t i.dst.base 1 ∧ t.draws = s.draws := by
  have hvr : v < s.par.r := by
    have := eight_p_le_r hadm
    omega
  obtain ⟨t, ht, hgroup, hcf', hframe, hdraws⟩ :=
    exec_result hsrc hreq hval hwidth.symm hready hexec (List.forall_mem_singleton.2 hvr)
  rw [hcf, Option.getD_none] at hcf'
  exact ⟨t, ht, hgroup, hv, hcf', hwidth ▸ hframe, hdraws⟩

theorem below_singleton {bound v : Nat} (h : v < bound) : Below bound [v] := List.forall_mem_singleton.2 h

theorem below_nil (bound : Nat) : Below bound [] := List.forall_mem_nil _

/-- Settles O38: the product of two values below `2p` is a value REDC takes. -/
theorem fpMulResult : Obligations.FpMulResult := by
  intro s rd rs1 rs2 a b hadm hready ha hb hsrc
  exact exec_fp_result hadm hready hsrc ⟨below_singleton ha, below_singleton hb⟩ rfl rfl rfl rfl
    (fpMul_lt_two_p hadm ha hb)

/-- Settles O39: the square of a value below `2p` is a value REDC takes. -/
theorem fpSqrResult : Obligations.FpSqrResult := by
  intro s rd rs1 a hadm hready ha hsrc
  exact exec_fp_result hadm hready hsrc ⟨below_singleton ha, below_nil _⟩ rfl rfl rfl rfl (fpMul_lt_two_p hadm ha ha)

/-- Settles O40: the command requires of its source just what REDC does. -/
theorem fpRdcResult : Obligations.FpRdcResult := by
  intro s rd rs1 lo hi hadm hready ht hsrc
  exact exec_fp_result hadm hready hsrc ht rfl rfl rfl rfl (redc_lt_two_p hadm ht)

/-- Settles O41: every temporary of the chain stays in the working range, and temporary 0 is the result. -/
theorem fpInvResult : Obligations.FpInvResult := by
  intro s rd rs1 a hadm hready ha hsrc
  have hreq : Requires s.par (.fpInv rd rs1) ⟨[a], []⟩ := ⟨below_singleton ha, below_nil _⟩
  have hzero : 0 < 2 * s.par.p := by omega
  have hbelow : Below (2 * s.par.p) (runChain s.par a) :=
    forall_runChain hzero (fun x y hx hy => fpMul_lt_two_p hadm hx hy) ha
  obtain ⟨t, hexec, hgroup, -, hcf, hrest⟩ :=
    exec_fp_result hadm hready hsrc hreq rfl rfl rfl rfl (forall_getD hbelow hzero 0)
  have htemps : t.temps = runChain s.par a := by
    cases hexec
    rw [complete_of_requires hsrc hreq]
    rfl
  exact ⟨t, hexec, htemps, htemps ▸ hgroup, htemps ▸ hbelow, hcf, hrest⟩

/-- Settles O58: the chain raises the residue to `p − 2`, which inverts it (Fermat) and keeps 0; its products keep the
exact 0. -/
theorem inversionIsCorrect : Obligations.InversionIsCorrect := by
  intro s rd rs1 a hadm hready ha hsrc
  obtain ⟨t, hexec, htemps, hgroup, hbelow, -⟩ := fpInvResult s rd rs1 a hadm hready ha hsrc
  have hslot : t.slot rd = (runChain s.par a).getD 0 0 := by rw [slot_of_groupHolds hgroup, htemps, runChain]
  have hpow : residue s.par (t.slot rd) = residue s.par a ^ (s.par.p - 2) := hslot ▸ residue_runChain hadm a
  have hp : 3 ≤ s.par.p := three_le_p_of_admitted hadm
  refine ⟨t, hexec, ?below, fun ha0 => ?inverse, fun ha0 => ?multiple, fun ha0 => ?zero⟩
  case below => exact slot_of_groupHolds hgroup ▸ forall_getD hbelow (by omega) 0
  case inverse =>
    have : Fact s.par.p.Prime := ⟨p_prime_of_admitted hadm⟩
    rw [hpow, ← pow_succ, show s.par.p - 2 + 1 = s.par.p - 1 by omega]
    exact ZMod.pow_card_sub_one_eq_one (mt (residue_eq_zero hadm).1 ha0)
  case multiple =>
    rw [← residue_eq_zero hadm, hpow, (residue_eq_zero hadm).2 ha0, zero_pow (by omega)]
  case zero =>
    subst ha0
    have hmul : ∀ x y, x = 0 → y = 0 → fpMul s.par x y = 0 := fun x y hx _ => by rw [fpMul, hx, Nat.zero_mul, redc_zero]
    exact hslot ▸ forall_getD (P := (· = 0)) (forall_runChain (P := (· = 0)) rfl hmul rfl) rfl 0

/-! ### Equal commands (R125, R129) -/

/-- On an idle core a command runs on its source slots as they stand, if they are written (log 10). -/
theorem sourcesOf_idle_written {s : State} {i : Instr} (hidle : s.seq = .idle) (h : s.unwritten i = none) :
    s.sourcesOf i = ⟨i.src1.slots.map s.slot, (optionSlots i.src2).map s.slot⟩ :=
  (sourcesOf_idle i s hidle).trans (sampleSources_written _ _ _ _ h)

/-- Settles O50: the two commands run on the same operand, in range for both, and have the same rule. -/
theorem squareEqualsProductWithItself : Obligations.SquareEqualsProductWithItself := by
  intro s rd rs hidle hwritten hlt
  have hmulWritten : s.unwritten (.fpMul rd rs rs) = none := by
    unfold State.unwritten at hwritten ⊢
    rw [firstUnwritten_eq_none] at hwritten ⊢
    exact fun k hk => hwritten k (by simpa [sourceSlots, Instr.src1, Instr.src2, optionSlots] using hk)
  have hsqr : s.sourcesOf (.fpSqr rd rs) = ⟨[s.slot rs], []⟩ := sourcesOf_idle_written hidle hwritten
  have hmul : s.sourcesOf (.fpMul rd rs rs) = ⟨[s.slot rs], [s.slot rs]⟩ := sourcesOf_idle_written hidle hmulWritten
  refine ⟨_, _, rfl, rfl, ?_⟩
  rw [complete_of_requires hsqr ⟨below_singleton hlt, below_nil _⟩,
    complete_of_requires hmul ⟨below_singleton hlt, below_singleton hlt⟩]
  exact ⟨rfl, rfl⟩

/-- The halves of a written double-width group are what FP_RDC of the group runs on. -/
theorem sourcesOf_fpRdc_of_groupHolds {s : State} {rd rs : SlotIx} {lo hi : Nat} (hidle : s.seq = .idle)
    (h : GroupHolds s rs [lo, hi]) : s.sourcesOf (.fpRdc rd rs) = ⟨[lo, hi], []⟩ := by
  obtain ⟨hlo, hloWritten⟩ := h 0 lo rfl
  obtain ⟨hhi, hhiWritten⟩ := h 1 hi rfl
  have hwritten : s.unwritten (.fpRdc rd rs) = none :=
    (firstUnwritten_eq_none ..).2 (List.forall_mem_cons.2 ⟨hloWritten, List.forall_mem_singleton.2 hhiWritten⟩)
  rw [sourcesOf_idle_written hidle hwritten, ← hlo, ← hhi]
  rfl

/-- A command keeps the parameters and the canonical form of the slot file. -/
theorem exec_wf {i : Instr} {s t : State} (h : slotFileWf s.par s.slots = true) (ht : exec i s = .next t) :
    t.par = s.par ∧ slotFileWf t.par t.slots = true := by
  obtain ⟨op, hexec, -⟩ := exec_eq_complete i s
  obtain rfl : s.complete i op = t := by simpa [hexec] using ht
  exact ⟨complete_par .., by rw [complete_par]; exact complete_wf h i op⟩

/-- Settles O51: MP_MUL leaves the exact product, written, in the group that FP_RDC reads. -/
theorem multiplyThenReduceEqualsFpMul : Obligations.MultiplyThenReduceEqualsFpMul := by
  intro s rd rt rs1 rs2 hadm hidle hmp hfp hwritten ha hb
  have hr := eight_p_le_r hadm
  have hfpSrc : s.sourcesOf (.fpMul rd rs1 rs2) = ⟨[s.slot rs1], [s.slot rs2]⟩ := sourcesOf_idle_written hidle hwritten
  have hmpSrc : s.sourcesOf (.mpMul rt rs1 rs2) = ⟨[s.slot rs1], [s.slot rs2]⟩ := sourcesOf_idle_written hidle hwritten
  obtain ⟨u, hu, hfpGroup, -⟩ := fpMulResult s rd rs1 rs2 _ _ hadm hfp ha hb hfpSrc
  obtain ⟨m, lo, hi, hm, hmpGroup, hprod, -, hframe, -⟩ :=
    mpMulResult s rt rs1 rs2 _ _ hmp (ha.trans_le (by omega)) (hb.trans_le (by omega)) hmpSrc
  obtain ⟨-, -, -, -, -, -, -, -, -, hmidle⟩ := hframe
  obtain ⟨hpar, hfile⟩ := exec_wf hmp.1 hm
  have hrdc : Ready m (.fpRdc rd rt) := by
    refine ⟨hfile, ?_⟩
    have hrd := wellFormed_dst hfp.2
    have hrt := wellFormed_dst hmp.2
    rw [Instr.wellFormed, Bool.and_eq_true, Bool.and_eq_true, hpar]
    exact ⟨⟨decide_eq_true hrd, decide_eq_true hrt⟩, rfl⟩
  have hbound : lo + hi * m.par.r < m.par.p * m.par.r := by
    rw [hpar, hprod]
    exact mul_lt_pr hadm ha hb
  obtain ⟨t, ht, hrdcGroup, -⟩ := fpRdcResult m rd rt lo hi (hpar ▸ hadm) hrdc hbound
    (sourcesOf_fpRdc_of_groupHolds hmidle hmpGroup)
  refine ⟨m, t, u, hm, ht, hu, ?_⟩
  rw [slot_of_groupHolds hrdcGroup, slot_of_groupHolds hfpGroup, hpar, hprod]

end Sys2Proof.Machine

end

section
/-! PROOF. The quadratic extension layer (42_extension_field.md): addition, subtraction, squaring and multiplication of FP2
elements, and the result of FP2_MUL. -/

namespace Sys2Proof.Machine

open Sys2Proof.Claims

/-! ### The integer steps: the headroom and the corrected difference (R7, R153) -/

section Integers

variable {par : Params}

/-- The headroom of R7: an unreduced sum or doubling, times a value in the working range, is a value REDC takes. -/
theorem add_mul_lt_pr (hadm : par.admitted) {a b c : Nat} (ha : a < 2 * par.p) (hb : b < 2 * par.p)
    (hc : c < 2 * par.p) : (a + b) * c < par.pr := by
  calc (a + b) * c < 4 * par.p * (2 * par.p) := Nat.mul_lt_mul'' (by omega) hc
    _ = par.p * (8 * par.p) := by ring
    _ ≤ par.pr := Nat.mul_le_mul_left _ (eight_p_le_r hadm)

/-- The headroom of R7: the cross products of two elements in the working range add up to a value REDC takes. -/
theorem cross_lt_pr (hadm : par.admitted) {a b : Fp2} (ha : Fp2Below par a) (hb : Fp2Below par b) :
    a.a0 * b.a1 + a.a1 * b.a0 < par.pr := by
  obtain ⟨ha0, ha1⟩ := ha
  obtain ⟨hb0, hb1⟩ := hb
  calc a.a0 * b.a1 + a.a1 * b.a0 < 2 * par.p * (2 * par.p) + 2 * par.p * (2 * par.p) :=
        Nat.add_lt_add (Nat.mul_lt_mul'' ha0 hb1) (Nat.mul_lt_mul'' ha1 hb0)
    _ = par.p * (8 * par.p) := by ring
    _ ≤ par.pr := Nat.mul_le_mul_left _ (eight_p_le_r hadm)

/-- The real part of `FP2MUL` before its reduction: a negative difference is corrected by `p·R` (R153). -/
def correctedDifference (par : Params) (x y : Nat) : Nat := if x < y then x + par.pr - y else x - y

theorem correctedDifference_lt_pr {x : Nat} (hx : x < par.pr) (y : Nat) : correctedDifference par x y < par.pr := by
  unfold correctedDifference
  split <;> omega

/-- The correction is a multiple of `p`. -/
theorem cast_correctedDifference (x : Nat) {y : Nat} (hy : y < par.pr) :
    (correctedDifference par x y : ZMod par.p) = x - y := by
  unfold correctedDifference
  split
  next h => rw [Nat.cast_sub (by omega), Nat.cast_add, Params.pr, Nat.cast_mul, ZMod.natCast_self, zero_mul, add_zero]
  next h => exact Nat.cast_sub (by omega)

/-- Three products suffice: the product of the sums, without the two products of the real part, is the cross products. -/
theorem fp2Mul_eq (par : Params) (a b : Fp2) : fp2Mul par a b =
    ⟨redc par (correctedDifference par (a.a0 * b.a0) (a.a1 * b.a1)), redc par (a.a0 * b.a1 + a.a1 * b.a0)⟩ := by
  have hcross : (a.a0 + a.a1) * (b.a0 + b.a1) - a.a0 * b.a0 - a.a1 * b.a1 = a.a0 * b.a1 + a.a1 * b.a0 := by
    rw [show (a.a0 + a.a1) * (b.a0 + b.a1) = a.a0 * b.a0 + (a.a1 * b.a1 + (a.a0 * b.a1 + a.a1 * b.a0)) by ring,
      Nat.add_sub_cancel_left, Nat.add_sub_cancel_left]
  rw [← hcross]
  rfl

end Integers

/-! ### The working range (R18, R150 to R154) -/

section Range

variable {par : Params} {a b : Fp2} (ha : Fp2Below par a) (hb : Fp2Below par b)

include ha

theorem fp2Sqr_below (hadm : par.admitted) : Fp2Below par (fp2Sqr par a) := by
  obtain ⟨h0, h1⟩ := ha
  exact ⟨redc_lt_two_p hadm (add_mul_lt_pr hadm h0 h1 (fpSub_spec h0 h1).1),
    redc_lt_two_p hadm (add_mul_lt_pr hadm h0 h0 h1)⟩

include hb

theorem fp2Add_below : Fp2Below par (fp2Add par a b) := ⟨(fpAdd_spec ha.1 hb.1).1, (fpAdd_spec ha.2 hb.2).1⟩

theorem fp2Sub_below : Fp2Below par (fp2Sub par a b) := ⟨(fpSub_spec ha.1 hb.1).1, (fpSub_spec ha.2 hb.2).1⟩

theorem fp2Mul_below (hadm : par.admitted) : Fp2Below par (fp2Mul par a b) := by
  rw [fp2Mul_eq]
  exact ⟨redc_lt_two_p hadm (correctedDifference_lt_pr (mul_lt_pr hadm ha.1 hb.1) _),
    redc_lt_two_p hadm (cross_lt_pr hadm ha hb)⟩

end Range

/-! ### The represented elements (R12, R14, R150 to R154) -/

section FieldCasts

variable {par : Params} {a b : Nat} (ha : a < 2 * par.p) (hb : b < 2 * par.p)

include ha hb

theorem cast_fpAdd : (fpAdd par a b : ZMod par.p) = a + b := by
  exact_mod_cast (ZMod.natCast_eq_natCast_iff _ _ _).2 (fpAdd_spec ha hb).2

theorem cast_fpSub : (fpSub par a b : ZMod par.p) = a - b := by
  rw [eq_sub_iff_add_eq]
  exact_mod_cast (ZMod.natCast_eq_natCast_iff _ _ _).2 (fpSub_spec ha hb).2

theorem residue_fpAdd : residue par (fpAdd par a b) = residue par a + residue par b := by
  rw [residue, cast_fpAdd ha hb, add_mul, residue, residue]

theorem residue_fpSub : residue par (fpSub par a b) = residue par a - residue par b := by
  rw [residue, cast_fpSub ha hb, sub_mul, residue, residue]

end FieldCasts

section Reducer

variable {par : Params} (hadm : par.admitted)

include hadm

/-- One reduction per component: each of the two products of Montgomery forms carries one factor `R` too many. -/
theorem element_redc {t u : Nat} {a b : Fp2} (ht : (t : ZMod par.p) = a.a0 * b.a0 - a.a1 * b.a1)
    (hu : (u : ZMod par.p) = a.a0 * b.a1 + a.a1 * b.a0) :
    element par ⟨redc par t, redc par u⟩ = times (element par a) (element par b) := by
  have hredc (v : Nat) : residue par (redc par v) = v * (par.r : ZMod par.p)⁻¹ * (par.r : ZMod par.p)⁻¹ := by
    rw [residue, cast_redc hadm, residue]
  rw [element, hredc, hredc, ht, hu]
  simp only [element, times, residue, Prod.mk.injEq]
  exact ⟨by ring, by ring⟩

/-- The reducer's congruence over the integers, for whatever integer its operand is congruent to. -/
theorem redc_mul_r_zmodEq {t : Nat} {c : Int} (hc : (t : ZMod par.p) = c) :
    (redc par t * par.r : Int) ≡ c [ZMOD par.p] := by
  have hredc : (redc par t * par.r : Int) ≡ t [ZMOD par.p] := by exact_mod_cast redc_mul_r_modEq hadm t
  exact hredc.trans ((ZMod.intCast_eq_intCast_iff _ _ _).1 (by exact_mod_cast hc))

end Reducer

section Elements

variable {par : Params} {a b : Fp2} (ha : Fp2Below par a) (hb : Fp2Below par b)

include ha

/-- The real part is the difference of the squares as a product, the imaginary part the doubled product. -/
theorem element_fp2Sqr (hadm : par.admitted) : element par (fp2Sqr par a) = square (element par a) := by
  refine element_redc hadm ?_ ?_
  · rw [Nat.cast_mul, Nat.cast_add, cast_fpSub ha.1 ha.2]
    ring
  · push_cast
    ring

include hb

theorem element_fp2Add : element par (fp2Add par a b) = element par a + element par b :=
  Prod.ext (residue_fpAdd ha.1 hb.1) (residue_fpAdd ha.2 hb.2)

theorem element_fp2Sub : element par (fp2Sub par a b) = element par a - element par b :=
  Prod.ext (residue_fpSub ha.1 hb.1) (residue_fpSub ha.2 hb.2)

variable (hadm : par.admitted)

include hadm

theorem cast_fp2Mul_real : (correctedDifference par (a.a0 * b.a0) (a.a1 * b.a1) : ZMod par.p) =
    a.a0 * b.a0 - a.a1 * b.a1 := by
  rw [cast_correctedDifference _ (mul_lt_pr hadm ha.2 hb.2), Nat.cast_mul, Nat.cast_mul]

theorem element_fp2Mul : element par (fp2Mul par a b) = times (element par a) (element par b) := by
  rw [fp2Mul_eq]
  exact element_redc hadm (cast_fp2Mul_real ha hb hadm) (by push_cast; rfl)

/-- The congruences of R154 (a). -/
theorem fp2Mul_zmodEq : ((fp2Mul par a b).a0 * par.r : Int) ≡ a.a0 * b.a0 - a.a1 * b.a1 [ZMOD par.p] ∧
    ((fp2Mul par a b).a1 * par.r : Int) ≡ a.a0 * b.a1 + a.a1 * b.a0 [ZMOD par.p] := by
  rw [fp2Mul_eq]
  exact ⟨redc_mul_r_zmodEq hadm (by exact_mod_cast cast_fp2Mul_real ha hb hadm),
    redc_mul_r_zmodEq hadm (by push_cast; rfl)⟩

end Elements

/-- Settles O53: each operation keeps the range and is that of the represented elements. -/
theorem extensionAddSubtractSquare : Obligations.ExtensionAddSubtractSquare :=
  fun _ _ _ hadm ha hb => ⟨fp2Add_below ha hb, fp2Sub_below ha hb, fp2Sqr_below ha hadm, element_fp2Add ha hb,
    element_fp2Sub ha hb, element_fp2Sqr ha hadm⟩

/-! ### Multiplication bit for bit (R154 (b) to (d)) -/

theorem fp2Mul_comm (par : Params) (a b : Fp2) : fp2Mul par a b = fp2Mul par b a := by
  simp only [fp2Mul_eq, Nat.mul_comm b.a0, Nat.mul_comm b.a1, Nat.add_comm (a.a1 * b.a0)]

@[simp] theorem correctedDifference_zero (par : Params) (x : Nat) : correctedDifference par x 0 = x := by
  simp [correctedDifference]

/-- The product of real elements is real. -/
theorem fp2Mul_real (par : Params) (x y : Nat) : fp2Mul par ⟨x, 0⟩ ⟨y, 0⟩ = ⟨fpMul par x y, 0⟩ := by
  simp [fp2Mul_eq, redc_zero, fpMul]

@[simp] theorem zero_fp2Mul (par : Params) (b : Fp2) : fp2Mul par ⟨0, 0⟩ b = ⟨0, 0⟩ := by
  simp [fp2Mul_eq, redc_zero]

@[simp] theorem fp2Mul_zero (par : Params) (a : Fp2) : fp2Mul par a ⟨0, 0⟩ = ⟨0, 0⟩ := by
  rw [fp2Mul_comm, zero_fp2Mul]

/-- Settles O54: both components are reductions of expressions symmetric in the two elements. -/
theorem extensionMultiplyProperties : Obligations.ExtensionMultiplyProperties := by
  refine fun par hadm => ⟨fun a b ha hb => ?_, fun x y _ _ => fp2Mul_real par x y⟩
  obtain ⟨hreal, himag⟩ := fp2Mul_zmodEq ha hb hadm
  exact ⟨fp2Mul_below ha hb hadm, hreal, himag, element_fp2Mul ha hb hadm, fp2Mul_comm par a b, zero_fp2Mul par b,
    fp2Mul_zero par a⟩

/-! ### The result of FP2_MUL (R155) -/

/-- The headroom of R7: a value in the working range fits a slot. -/
theorem below_r_of_below_two_p {par : Params} (hadm : par.admitted) {vs : List Nat} (h : Below (2 * par.p) vs) :
    Below par.r vs := by
  intro v hv
  have := h v hv
  have := eight_p_le_r hadm
  omega

/-- Settles O42: the command requires the working range of its sources, and its rule keeps it. -/
theorem fp2MulResult : Obligations.Fp2MulResult := by
  intro s rd rs1 rs2 a b hadm hready ha hb hsrc
  have hreq : Requires s.par (.fp2Mul rd rs1 rs2) ⟨fp2Slots a, fp2Slots b⟩ := ⟨below_fp2Slots ha, below_fp2Slots hb⟩
  have hmul : Fp2Below s.par (fp2Mul s.par a b) := fp2Mul_below ha hb hadm
  obtain ⟨t, hexec, hgroup, hcf, hrest⟩ :=
    exec_result hsrc hreq rfl rfl hready rfl (below_r_of_below_two_p hadm (below_fp2Slots hmul))
  exact ⟨t, hexec, hgroup, hmul, hcf, hrest⟩

end Sys2Proof.Machine

end

section
/-! PROOF. The curve layer (43_curve_isogeny.md): doubling and isogeny evaluation as operations on represented points,
the results of PT_DBL, ISO4_EVAL and ISO3_EVAL, and an isogeny at its own kernel point. -/

namespace Sys2Proof.Machine

open Sys2Proof.Claims

/-! ### Representation: an FP2 element in the working range and the element of F_p^2 it stands for (R12, R14, R18) -/

/-- `a` is in the working range and represents `u`. -/
structure Represents (par : Params) (a : Fp2) (u : ZMod par.p × ZMod par.p) : Prop where
  below : Fp2Below par a
  element_eq : element par a = u

/-- Both coordinates of `q` are in the working range, and represent `x` and `z`. -/
structure RepresentsPoint (par : Params) (q : Point) (x z : ZMod par.p × ZMod par.p) : Prop where
  x : Represents par q.x x
  z : Represents par q.z z

section Representation

variable {par : Params} {a b : Fp2} {u v : ZMod par.p × ZMod par.p}

theorem represents_element (h : Fp2Below par a) : Represents par a (element par a) := ⟨h, rfl⟩

theorem representsPoint_element {q : Point} (h : PointBelow par q) :
    RepresentsPoint par q (element par q.x) (element par q.z) :=
  ⟨represents_element h.1, represents_element h.2⟩

theorem RepresentsPoint.below {q : Point} (h : RepresentsPoint par q u v) : PointBelow par q :=
  ⟨h.x.below, h.z.below⟩

theorem Represents.add (ha : Represents par a u) (hb : Represents par b v) : Represents par (fp2Add par a b) (u + v) :=
  ⟨fp2Add_below ha.below hb.below, by rw [element_fp2Add ha.below hb.below, ha.element_eq, hb.element_eq]⟩

theorem Represents.sub (ha : Represents par a u) (hb : Represents par b v) : Represents par (fp2Sub par a b) (u - v) :=
  ⟨fp2Sub_below ha.below hb.below, by rw [element_fp2Sub ha.below hb.below, ha.element_eq, hb.element_eq]⟩

theorem Represents.sqr (hadm : par.admitted) (ha : Represents par a u) : Represents par (fp2Sqr par a) (square u) :=
  ⟨fp2Sqr_below ha.below hadm, by rw [element_fp2Sqr ha.below hadm, ha.element_eq]⟩

theorem Represents.mul (hadm : par.admitted) (ha : Represents par a u) (hb : Represents par b v) :
    Represents par (fp2Mul par a b) (times u v) :=
  ⟨fp2Mul_below ha.below hb.below hadm, by rw [element_fp2Mul ha.below hb.below hadm, ha.element_eq, hb.element_eq]⟩

theorem times_comm (u v : ZMod par.p × ZMod par.p) : times u v = times v u :=
  Prod.ext (by simp only [times]; ring) (by simp only [times]; ring)

/-- The identity behind doubling: the two squares of R171 differ by four times the product of the coordinates. -/
theorem square_add_sub_square_sub (x z : ZMod par.p × ZMod par.p) :
    square (x + z) - square (x - z) = (4 : ZMod par.p) • times x z := by
  refine Prod.ext ?_ ?_
  · simp [square, times]
    ring
  · simp [square, times]
    ring

end Representation

/-! ### Doubling and isogeny evaluation line by line (R171, R173, R175) -/

section Formulas

variable {par : Params} (hadm : par.admitted) {q : Point} {x z : ZMod par.p × ZMod par.p}
  (hq : RepresentsPoint par q x z)

include hadm hq

/-- The closed form of `XDBL`: the rule's second `t1` is `4XZ`. -/
theorem xdbl_represents {a24plus c24 : Fp2} {a c : ZMod par.p × ZMod par.p} (ha : Represents par a24plus a)
    (hc : Represents par c24 c) :
    RepresentsPoint par (xdbl par q a24plus c24) (times (times c (square (x - z))) (square (x + z)))
      (times ((4 : ZMod par.p) • times x z) (times c (square (x - z)) + times a ((4 : ZMod par.p) • times x z))) := by
  have ht0 := (hq.x.sub hq.z).sqr hadm
  have ht1 := (hq.x.add hq.z).sqr hadm
  have hz2 := hc.mul hadm ht0
  have hxz4 := ht1.sub ht0
  rw [square_add_sub_square_sub] at hxz4
  rw [times_comm _ (square (x + z)), times_comm (_ • _)]
  exact ⟨ht1.mul hadm hz2, (hz2.add (ha.mul hadm hxz4)).mul hadm hxz4⟩

/-- The closed form of `EVAL4`, with `u`, `v` and `w` written out. -/
theorem eval4_represents {k0 k1 k2 : Fp2} {e0 e1 e2 u v w : ZMod par.p × ZMod par.p} (h0 : Represents par k0 e0)
    (h1 : Represents par k1 e1) (h2 : Represents par k2 e2) (hu : u = times (x + z) e1) (hv : v = times (x - z) e2)
    (hw : w = times e0 (times (x + z) (x - z))) :
    RepresentsPoint par (eval4 par q k0 k1 k2) (times (square (u + v) + w) (square (u + v)))
      (times (square (u - v) - w) (square (u - v))) := by
  subst hu hv hw
  have hsum := hq.x.add hq.z
  have hdiff := hq.x.sub hq.z
  have hu := hsum.mul hadm h1
  have hv := hdiff.mul hadm h2
  have hw := (hsum.mul hadm hdiff).mul hadm h0
  have hplus := (hu.add hv).sqr hadm
  have hminus := (hu.sub hv).sqr hadm
  rw [times_comm e0, times_comm (_ - _) (square _)]
  exact ⟨(hplus.add hw).mul hadm hplus, hminus.mul hadm (hminus.sub hw)⟩

/-- The closed form of `EVAL3`. -/
theorem eval3_represents {k0 k1 : Fp2} {e0 e1 : ZMod par.p × ZMod par.p} (h0 : Represents par k0 e0)
    (h1 : Represents par k1 e1) :
    RepresentsPoint par (eval3 par q k0 k1) (times x (square (times e0 (x + z) + times e1 (x - z))))
      (times z (square (times e1 (x - z) - times e0 (x + z)))) := by
  have ht0 := h0.mul hadm (hq.x.add hq.z)
  have ht1 := h1.mul hadm (hq.x.sub hq.z)
  exact ⟨hq.x.mul hadm ((ht0.add ht1).sqr hadm), hq.z.mul hadm ((ht1.sub ht0).sqr hadm)⟩

end Formulas

/-- Settles O55: the closed form is that of the rule's lines. -/
theorem doublingClosedForm : Obligations.DoublingClosedForm := by
  rintro par q a24plus c24 hadm hq ha hc x z a c xz4 rfl rfl rfl rfl rfl
  have h := xdbl_represents hadm (representsPoint_element hq) (represents_element ha) (represents_element hc)
  exact ⟨h.below, h.x.element_eq, h.z.element_eq⟩

/-- Settles O56: the closed forms are those of the rules' lines. -/
theorem isogenyClosedForms : Obligations.IsogenyClosedForms := by
  rintro par q k0 k1 k2 hadm hq h0 h1 h2 x z e0 e1 e2 u v w rfl rfl rfl rfl rfl hu hv hw
  have h4 := eval4_represents hadm (representsPoint_element hq) (represents_element h0) (represents_element h1)
    (represents_element h2) hu hv hw
  have h3 := eval3_represents hadm (representsPoint_element hq) (represents_element h0) (represents_element h1)
  exact ⟨h4.below, h3.below, h4.x.element_eq, h4.z.element_eq, h3.x.element_eq, h3.z.element_eq⟩

/-! ### Results of the commands (R172, R174, R176) -/

section Range

variable {par : Params} (hadm : par.admitted) {q : Point} (hq : PointBelow par q)

include hadm hq

theorem xdbl_below {a24plus c24 : Fp2} (ha : Fp2Below par a24plus) (hc : Fp2Below par c24) :
    PointBelow par (xdbl par q a24plus c24) :=
  (xdbl_represents hadm (representsPoint_element hq) (represents_element ha) (represents_element hc)).below

theorem xdblTimes_below {a24plus c24 : Fp2} (ha : Fp2Below par a24plus) (hc : Fp2Below par c24) (e : Nat) :
    PointBelow par (xdblTimes par a24plus c24 e q) := by
  induction e generalizing q with
  | zero => exact hq
  | succ e ih => exact ih (xdbl_below hadm hq ha hc)

theorem eval4_below {k0 k1 k2 : Fp2} (h0 : Fp2Below par k0) (h1 : Fp2Below par k1) (h2 : Fp2Below par k2) :
    PointBelow par (eval4 par q k0 k1 k2) :=
  (eval4_represents hadm (representsPoint_element hq) (represents_element h0) (represents_element h1)
    (represents_element h2) rfl rfl rfl).below

theorem eval3_below {k0 k1 : Fp2} (h0 : Fp2Below par k0) (h1 : Fp2Below par k1) :
    PointBelow par (eval3 par q k0 k1) :=
  (eval3_represents hadm (representsPoint_element hq) (represents_element h0) (represents_element h1)).below

end Range

/-- The repetition of R172 is the iterate of one doubling. -/
theorem xdblTimes_eq_iterate (par : Params) (a24plus c24 : Fp2) (e : Nat) (q : Point) :
    xdblTimes par a24plus c24 e q = (fun q => xdbl par q a24plus c24)^[e] q := by
  induction e generalizing q with
  | zero => rfl
  | succ e ih => exact ih _

/-- A curve command in range: a point in the working range in the destination group, CF as it was. -/
theorem exec_point_result {s : State} {i : Instr} {op : Sources → Effect} {src : Sources} {q : Point}
    (hadm : s.par.admitted) (hready : Ready s i) (hsrc : s.sourcesOf i = src) (hreq : Requires s.par i src)
    (hexec : exec i s = .next (s.complete i op)) (hwidth : i.dst.group.width = 4) (hval : (op src).dsts = pointSlots q)
    (hcf : (op src).cf = none) (hq : PointBelow s.par q) :
    ∃ t, exec i s = .next t ∧ GroupHolds t i.dst.base (pointSlots q) ∧ PointBelow s.par q ∧ t.cf = s.cf ∧
      CommandFrame s t i.dst.base 4 ∧ t.draws = s.draws := by
  obtain ⟨t, ht, hgroup, hcf', hframe, hdraws⟩ := exec_result hsrc hreq hval hwidth.symm hready hexec
    (below_r_of_below_two_p hadm (below_pointSlots hq))
  rw [hcf, Option.getD_none] at hcf'
  exact ⟨t, ht, hgroup, hq, hcf', hwidth ▸ hframe, hdraws⟩

/-- Settles O43: the command's repetition keeps the working range, and is the iterate. -/
theorem ptDblResult : Obligations.PtDblResult := by
  intro s rd rs1 rs2 e q a24plus c24 hadm hready hq ha hc hsrc
  have hreq : Requires s.par (.ptDbl rd rs1 rs2 e) ⟨pointSlots q, fp2Slots a24plus ++ fp2Slots c24⟩ :=
    ⟨below_pointSlots hq, below_append (below_fp2Slots ha) (below_fp2Slots hc)⟩
  obtain ⟨t, hexec, hresult⟩ :=
    exec_point_result hadm hready hsrc hreq rfl rfl rfl rfl (xdblTimes_below hadm hq ha hc e)
  exact ⟨t, _, hexec, xdblTimes_eq_iterate .., hresult⟩

/-- Settles O44: the command requires the working range of its sources, and its rule keeps it. -/
theorem iso4EvalResult : Obligations.Iso4EvalResult := by
  intro s rd rs1 rs2 q k0 k1 k2 hadm hready hq h0 h1 h2 hsrc
  have hreq : Requires s.par (.iso4Eval rd rs1 rs2) ⟨pointSlots q, fp2Slots k0 ++ fp2Slots k1 ++ fp2Slots k2⟩ :=
    ⟨below_pointSlots hq, below_append (below_append (below_fp2Slots h0) (below_fp2Slots h1)) (below_fp2Slots h2)⟩
  exact exec_point_result hadm hready hsrc hreq rfl rfl rfl rfl (eval4_below hadm hq h0 h1 h2)

/-- Settles O45: the command requires the working range of its sources, and its rule keeps it. -/
theorem iso3EvalResult : Obligations.Iso3EvalResult := by
  intro s rd rs1 rs2 q k0 k1 hadm hready hq h0 h1 hsrc
  have hreq : Requires s.par (.iso3Eval rd rs1 rs2) ⟨pointSlots q, fp2Slots k0 ++ fp2Slots k1⟩ :=
    ⟨below_pointSlots hq, below_append (below_fp2Slots h0) (below_fp2Slots h1)⟩
  exact exec_point_result hadm hready hsrc hreq rfl rfl rfl rfl (eval3_below hadm hq h0 h1)

/-! ### An isogeny at its own kernel point (R177) -/

@[simp] theorem fp2Sub_self (par : Params) (a : Fp2) : fp2Sub par a a = ⟨0, 0⟩ := by simp [fp2Sub]

@[simp] theorem fp2Sqr_zero (par : Params) : fp2Sqr par ⟨0, 0⟩ = ⟨0, 0⟩ := by simp [fp2Sqr, redc_zero]

/-- The rule's `u = (X+Z)·(X−Z)` and `v = (X−Z)·(X+Z)` are equal bit for bit. -/
theorem eval4_kernel_z (par : Params) (q : Point) (k0 : Fp2) :
    (eval4 par q k0 (fp2Sub par q.x q.z) (fp2Add par q.x q.z)).z = ⟨0, 0⟩ := by
  have huv := fp2Mul_comm par (fp2Add par q.x q.z) (fp2Sub par q.x q.z)
  simp [eval4, huv]

/-- The rule's two products are `(X−Z)·(X+Z)` and `(X+Z)·(X−Z)`, equal bit for bit. -/
theorem eval3_kernel_z (par : Params) (q : Point) :
    (eval3 par q (fp2Sub par q.x q.z) (fp2Add par q.x q.z)).z = ⟨0, 0⟩ := by
  have huv := fp2Mul_comm par (fp2Add par q.x q.z) (fp2Sub par q.x q.z)
  simp [eval3, huv]

/-- The last two slots of a point's group are its Z. -/
theorem slots_eq_zero_of_z_eq_zero {t : State} {base : Nat} {q : Point} (h : GroupHolds t base (pointSlots q))
    (hz : q.z = ⟨0, 0⟩) : t.slot (base + 2) = 0 ∧ t.slot (base + 3) = 0 :=
  ⟨(h 2 0 (by simp [pointSlots, hz])).1, (h 3 0 (by simp [pointSlots, hz])).1⟩

/-- Settles O57: Z is 0 by the rules alone; the commands write it as their results say. -/
theorem kernelPointMapsToInfinity : Obligations.KernelPointMapsToInfinity := by
  intro s rd rs1 rs2 q k0 hadm hq h0
  have hsub := fp2Sub_below hq.1 hq.2
  have hadd := fp2Add_below hq.1 hq.2
  have hz4 := eval4_kernel_z s.par q k0
  have hz3 := eval3_kernel_z s.par q
  refine ⟨hz4, hz3, fun hready hsrc => ?_, fun hready hsrc => ?_⟩
  · obtain ⟨t, hexec, hgroup, -⟩ := iso4EvalResult s rd rs1 rs2 q _ _ _ hadm hready hq h0 hsub hadd hsrc
    exact ⟨t, hexec, slots_eq_zero_of_z_eq_zero hgroup hz4⟩
  · obtain ⟨t, hexec, hgroup, -⟩ := iso3EvalResult s rd rs1 rs2 q _ _ hadm hready hq hsub hadd hsrc
    exact ⟨t, hexec, slots_eq_zero_of_z_eq_zero hgroup hz3⟩

end Sys2Proof.Machine

end

section
/-! PROOF. Errors and faults (60_exceptions.md): refused words, dropped writes, what acceptance records, the growth of the
fault record, commands out of range, and the end of every busy period. -/

namespace Sys2Proof.Machine

open Sys2Proof.Safety Sys2Proof.Claims

/-! ### Architected errors (R202, R203) -/

/-- Settles O20: the step is `State.refuse` on the state without the action. -/
theorem illegalWordIsRefused : Obligations.IllegalWordIsRefused := by
  intro s v o rest e hq hin hleg
  rw [step_of_action hin (.inl hq)]
  exact congrArg Host.Outcome.next (perform_write_cmd_illegal (s := { s with inputs := rest }) hq hleg)

/-- A CTRL write with bit 0 = 1 while busy is the hazard 7; with bit 0 = 0 it does nothing. -/
theorem writeCtrl_busy {s : State} {v : BusWord} (hb : s.busy = true) (hv : v.getLsbD 0 = true) :
    s.writeCtrl v = s.hazard .hazWipe := by
  rw [State.writeCtrl, if_pos hv, if_pos hb]

theorem writeCtrl_bit0_zero {s : State} {v : BusWord} (hv : v.getLsbD 0 = false) : s.writeCtrl v = s := by
  rw [State.writeCtrl, if_neg (by rw [hv]; decide)]

/-- A read while busy records nothing and sets no STATUS bit. -/
theorem perform_read_busy {s : State} (hb : s.busy = true) (a : CellAddr) :
    (s.perform (.read a)).haz = s.haz ∧ (s.perform (.read a)).ecode = s.ecode ∧
      (s.perform (.read a)).faults = s.faults := by
  rw [State.perform]
  obtain ⟨v, h⟩ | h | ⟨hq, -⟩ := hostRead_cases a s
  · simp [h]
  · simp [h]
  · exact absurd hq ((busy_eq_true s).1 hb)

/-- Settles O21: each write that R203 names is `State.hazard`, and no other access of a busy core is. -/
theorem busyWritesAreDropped : Obligations.BusyWritesAreDropped := by
  intro s v hb
  refine ⟨?_, fun a hlo hhi => ?_, fun hv => ?_, fun hv => ?_, perform_read_busy hb, ?_, ?_, fun a h5 ha => ?_⟩
  · rw [perform_write_cmd, writeCmd_busy _ _ hb]
    rfl
  · obtain ⟨k, j, hcell⟩ := cellOf_window hlo hhi
    rw [perform_write_digit _ _ hcell, writeDigit_busy _ _ _ _ hb]
    rfl
  · rw [perform_write_ctrl, writeCtrl_busy hb hv]
    rfl
  · rw [perform_write_ctrl, writeCtrl_bit0_zero hv]
  · rw [perform_write_status, State.clearStatus_haz]
    exact fun h => (Bool.and_eq_true_iff.1 h).1
  · rw [perform_write_status, State.clearStatus_faults]
  · exact perform_write_reserved s v (cellOf_reserved h5 ha)

/-! ### What acceptance records (R204(b), R205) -/

/-- The first unwritten digit is found at its place. -/
theorem firstUnwrittenDigit_eq_some {sl : Slot} {j : Nat} (k : Nat) (hj : j < sl.length)
    (hd : (sl.getD j Digit.unwritten).written = false)
    (hbefore : ∀ j' < j, (sl.getD j' Digit.unwritten).written = true) : firstUnwrittenDigit k sl = some (k + j) := by
  induction sl generalizing j k with
  | nil => exact absurd hj (Nat.not_lt_zero j)
  | cons d ds ih =>
    rw [firstUnwrittenDigit]
    cases j with
    | zero => rw [if_neg (by simpa using hd), Nat.add_zero]
    | succ j =>
      have hfirst : d.written = true := hbefore 0 (Nat.succ_pos j)
      rw [if_pos hfirst, ih (k + 1) (Nat.lt_of_succ_lt_succ hj) hd fun j' hj' => hbefore (j' + 1) (Nat.succ_lt_succ hj')]
      congr 1
      omega

/-- Written slots before it do not hide the first slot with an unwritten digit. -/
theorem firstUnwritten_append {slots : List Slot} {pre : List Nat} {k j : Nat} (post : List Nat)
    (hpre : ∀ x ∈ pre, slotWritten (slotAt slots x) = true) (hk : firstUnwrittenDigit 0 (slotAt slots k) = some j) :
    firstUnwritten slots (pre ++ k :: post) = some (k, j) := by
  induction pre with
  | nil => simp [firstUnwritten, hk]
  | cons x pre ih =>
    have hx : firstUnwrittenDigit 0 (slotAt slots x) = none := (firstUnwrittenDigit_eq_none 0 _).2 (hpre x (by simp))
    simp [firstUnwritten, hx, ih fun y hy => hpre y (by simp [hy])]

/-- What `firstNotBelow` finds is not below the bound, and everything before it is. -/
theorem firstNotBelow_eq_some {bound k m : Nat} {vs : List Nat} (h : firstNotBelow bound k vs = some m) :
    ∃ j, m = k + j ∧ bound ≤ component vs j ∧ Below bound (vs.take j) := by
  induction vs generalizing k with
  | nil => simp [firstNotBelow] at h
  | cons v vs ih =>
    rw [firstNotBelow] at h
    split at h
    next hv =>
      obtain ⟨j, rfl, hj, hbelow⟩ := ih h
      refine ⟨j + 1, by omega, hj, ?_⟩
      rw [List.take_succ_cons]
      exact List.forall_mem_cons.2 ⟨hv, hbelow⟩
    next hv =>
      obtain rfl : k = m := by simpa using h
      exact ⟨0, rfl, Nat.le_of_not_lt hv, by simp [Below]⟩

section Violation

variable {par : Params} {i : Instr} {src : Sources} {k : Nat}

theorem firstOverTwoP_rs1 (h : firstOverTwoP par src = some (.rs1, k)) :
    2 * par.p ≤ component src.rs1 k ∧ Below (2 * par.p) (src.rs1.take k) := by
  unfold firstOverTwoP at h
  split at h
  next m hm =>
    obtain ⟨j, rfl, hj⟩ := firstNotBelow_eq_some hm
    obtain rfl : j = k := by simpa using h
    exact hj
  next => simp at h

theorem firstOverTwoP_rs2 (h : firstOverTwoP par src = some (.rs2, k)) :
    2 * par.p ≤ component src.rs2 k ∧ Below (2 * par.p) (src.rs2.take k) ∧ Below (2 * par.p) src.rs1 := by
  unfold firstOverTwoP at h
  split at h
  next => simp at h
  next hrs1 =>
    obtain ⟨j, rfl, hj, hbelow⟩ := firstNotBelow_eq_some (m := k) (by simpa using h)
    rw [Nat.zero_add]
    exact ⟨hj, hbelow, firstNotBelow_eq_none.1 hrs1⟩

/-- Every violation but FP_RDC's is of the range `[0, 2p)` (the table of R205). -/
theorem violation_eq_firstOverTwoP {x : SrcField × Nat} (hopc : i.opc ≠ 0x07) (h : violation par i src = some x) :
    firstOverTwoP par src = some x := by
  cases i with
  | mpAdd | mpSub | mpSubc | mpMul => simp [violation] at h
  | fpRdc => exact absurd rfl hopc
  | fpMul | fpSqr | fpInv | fp2Mul | ptDbl | iso4Eval | iso3Eval => exact h

theorem violation_eq_none_iff : violation par i src = none ↔ Requires par i src := by
  rw [← inRange_iff_requires, inRange, Option.isNone_iff_eq_none]

end Violation

section AcceptFault

variable {s : State} {i : Instr}

theorem acceptFault_unwritten {k j : Nat} (h : s.unwritten i = some (k, j)) :
    s.acceptFault i = some (.unwrittenSource k j) := by
  simp [State.acceptFault, h]

theorem acceptFault_inRange (hu : s.unwritten i = none) (h : violation s.par i (s.sample i) = none) :
    s.acceptFault i = none := by
  simp [State.acceptFault, hu, h]

theorem acceptFault_outOfRange {f : SrcField} {k : Nat} (hu : s.unwritten i = none)
    (h : violation s.par i (s.sample i) = some (f, k)) :
    s.acceptFault i = some (.preconditionViolation i.opc f k) := by
  simp [State.acceptFault, hu, h]

end AcceptFault

/-- Settles O9: unwritten digits are looked for first, then the command's range is checked; each search stops at the first
it finds. -/
theorem acceptanceRecordsModelFaults : Obligations.AcceptanceRecordsModelFaults := by
  refine fun s c i => ⟨fun pre k post j hsrc hpre hj hd hbefore => ?_, fun hw => ?_⟩
  · have hdigit := firstUnwrittenDigit_eq_some 0 hj hd hbefore
    rw [Nat.zero_add] at hdigit
    have hu : s.unwritten i = some (k, j) := by
      rw [State.unwritten, hsrc]
      exact firstUnwritten_append post hpre hdigit
    rw [State.accept_faults, acceptFault_unwritten hu, recordFault]
  · have hu : s.unwritten i = none := (firstUnwritten_eq_none s.slots _).2 hw
    refine ⟨fun hreq => ?_, fun hreq => ?_⟩
    · rw [State.accept_faults, acceptFault_inRange hu (violation_eq_none_iff.2 hreq), recordFault]
    · obtain ⟨⟨f, k⟩, hv⟩ := Option.ne_none_iff_exists'.1 (mt violation_eq_none_iff.1 hreq)
      refine ⟨f, k, by rw [State.accept_faults, acceptFault_outOfRange hu hv, recordFault], fun hopc => ?_⟩
      have hfirst := violation_eq_firstOverTwoP hopc hv
      cases f with
      | rs1 => exact firstOverTwoP_rs1 hfirst
      | rs2 => exact firstOverTwoP_rs2 hfirst

/-! ### A command out of range (R207) -/

theorem freeSlots_below (par : Params) (k n : Nat) : Below par.r (freeSlots par k n) := by
  intro v hv
  obtain ⟨j, -, rfl⟩ := List.mem_map.1 hv
  exact Nat.mod_lt _ (Nat.two_pow_pos _)

/-- Settles O22: the completion is `State.retireUnspecified`, whose free values are below `R`. -/
theorem outOfRangeCommandCompletes : Obligations.OutOfRangeCommandCompletes := by
  rintro s i ⟨hfile, hwf⟩ hreq
  obtain ⟨op, hexec, -⟩ := exec_eq_complete i s
  have hout : inRange s.par i (s.sourcesOf i) = false := by rwa [← Bool.not_eq_true, inRange_iff_requires]
  have hlen := freeSlots_length s.par s.draws i.dst.group.width
  have hbelow := freeSlots_below s.par s.draws i.dst.group.width
  have hfit : i.dst.base.val + i.dst.group.width ≤ s.slots.length := by
    rw [((slotFileWf_iff _ _).1 hfile).1]
    exact wellFormed_dst hwf
  rw [complete_of_outOfRange i op s hout] at hexec
  refine ⟨_, _, hexec, hlen, hbelow, fun j v hj => ?_, rfl, ⟨writeSlots_length .., fun k hk => ?_⟩,
    rfl, rfl, rfl, rfl, rfl, rfl, rfl, rfl, rfl⟩
  · have h := slot_of_writeSlots (State.retireUnspecified_par s i _) (State.retireUnspecified_slots s i (s.sourcesOf i))
      (by rwa [hlen]) hj
    rwa [Nat.mod_eq_of_lt (hbelow v (List.mem_of_getElem? hj))] at h
  · exact writeSlots_outside _ _ _ _ _ (by rwa [hlen])

/-! ### What every step keeps (R206, R208) -/

/-- `t` has the parameters and the host queue of `s`, and has every fault that `s` has. -/
def KeepsRecord (s t : State) : Prop := t.par = s.par ∧ t.inputs = s.inputs ∧ s.faults ⊆ t.faults

section KeepsRecord

variable (s : State)

theorem hostRead_keepsRecord (a : CellAddr) : KeepsRecord s (s.hostRead a) := by
  obtain ⟨v, h⟩ | h | ⟨-, k, j, h⟩ := hostRead_cases a s <;> rw [h]
  · exact ⟨rfl, rfl, List.Subset.refl _⟩
  · exact ⟨rfl, rfl, List.Subset.refl _⟩
  · exact ⟨rfl, rfl, subset_addFault _ _⟩

theorem submit_keepsRecord (c : Word) : KeepsRecord s (s.submit c) := by
  obtain ⟨i, -, -, h⟩ | ⟨e, -, h⟩ := submit_cases c s <;> rw [h]
  · exact ⟨rfl, rfl, subset_recordFault _ _⟩
  · exact ⟨rfl, rfl, subset_addFault _ _⟩

theorem hostWrite_keepsRecord (a : CellAddr) (v : BusWord) : KeepsRecord s (s.hostWrite a v) := by
  obtain h | h | ⟨-, e, h⟩ | ⟨-, h | ⟨k, j, h⟩ | h⟩ := hostWrite_cases a v s <;> rw [h]
  case inr.inr.inl => exact ⟨rfl, rfl, subset_addFault _ _⟩
  case inr.inr.inr.inr.inr => exact submit_keepsRecord s _
  all_goals exact ⟨rfl, rfl, List.Subset.refl _⟩

theorem perform_keepsRecord (act : HostAction) : KeepsRecord s (s.perform act) := by
  cases act with
  | read a => exact hostRead_keepsRecord s a
  | write a v => exact hostWrite_keepsRecord s a _
  | reset => exact ⟨rfl, rfl, List.Subset.refl _⟩

/-- The sequencer's step always answers, records nothing, and leaves the core idle (R31, R208). -/
theorem sequencerStep_next : ∃ t, sequencerStep s = .next t ∧ KeepsRecord s t ∧ t.seq = .idle := by
  obtain ⟨hq, h⟩ | ⟨i, src, -, h⟩ | ⟨-, h⟩ := sequencerStep_cases s
  · exact ⟨s, h, ⟨rfl, rfl, List.Subset.refl _⟩, hq⟩
  · obtain ⟨op, hexec, -⟩ := exec_eq_complete i s
    exact ⟨_, h.trans hexec, by simp [KeepsRecord], by simp⟩
  · exact ⟨_, h, ⟨rfl, rfl, List.Subset.refl _⟩, rfl⟩

/-- Every step answers a state with the same parameters whose record has grown or stayed. -/
theorem step_next : ∃ t, step s = .next t ∧ t.par = s.par ∧ s.faults ⊆ t.faults := by
  obtain ⟨hs, -⟩ | ⟨a, rest, -, -, hs⟩ := step_cases s
  · obtain ⟨t, ht, ⟨hp, -, hf⟩, -⟩ := sequencerStep_next s
    exact ⟨t, hs.trans ht, hp, hf⟩
  · obtain ⟨hp, -, hf⟩ := perform_keepsRecord { s with inputs := rest } a.act
    exact ⟨_, hs, hp, hf⟩

end KeepsRecord

/-- Settles O13: whatever a step performs keeps the record, and `strictStep` looks whether the record is empty. -/
theorem faultRecordOnlyGrows : Obligations.FaultRecordOnlyGrows := by
  refine ⟨fun s t r ht hr => ?_, fun s hs => ?_, fun s t hs => ?_⟩
  · obtain ⟨t', ht', -, hsub⟩ := step_next s
    obtain rfl : t' = t := by simpa [ht'] using ht
    exact hsub hr
  · rw [strictStep, hs]
  · obtain ⟨r, rs, hr⟩ := List.exists_cons_of_ne_nil hs
    simp [strictStep, hr]

/-! ### Busy periods (R204(c), R208, R241) -/

/-- A busy core is idle again after at most one step more than there are actions: an action that overtakes takes one step and
leaves the queue, and otherwise the step is the completion. -/
theorem run_until_idle (s : State) (hb : s.busy = true) :
    ∃ k t, k ≤ s.inputs.length + 1 ∧ run k s = .next t ∧ t.busy = false := by
  induction hin : s.inputs generalizing s with
  | nil =>
    obtain ⟨t, ht, -, hq⟩ := sequencerStep_next s
    have hstep : step s = .next t := (step_of_waits (by rw [hin]; trivial) (.inl hin)).trans ht
    exact ⟨1, t, Nat.le_refl 1, run_one hstep, (busy_eq_false t).2 hq⟩
  | cons a rest ih =>
    cases ho : a.overtakes with
    | false =>
      obtain ⟨t, ht, -, hq⟩ := sequencerStep_next s
      have hstep : step s = .next t := (step_of_waits (by rw [hin]; exact ho) (.inr ((busy_eq_true s).1 hb))).trans ht
      exact ⟨1, t, by omega, run_one hstep, (busy_eq_false t).2 hq⟩
    | true =>
      have hrun := run_one (step_of_action hin (.inr ho))
      obtain ⟨-, hrest, -⟩ := perform_keepsRecord { s with inputs := rest } a.act
      cases hidle : (({ s with inputs := rest } : State).perform a.act).busy with
      | false => exact ⟨1, _, by omega, hrun, hidle⟩
      | true =>
        obtain ⟨k, t, hk, ht, hq⟩ := ih _ hidle hrest
        exact ⟨1 + k, t, by rw [List.length_cons]; omega, (run_add k hrun).trans ht, hq⟩

/-- Settles O14: no step stops, and a busy period is bounded by what the host has queued. -/
theorem busyPeriodEnds : Obligations.BusyPeriodEnds := by
  refine ⟨fun s => ?_, run_until_idle⟩
  obtain ⟨t, ht, hp, -⟩ := step_next s
  exact ⟨t, ht, hp⟩

/-- Bit 0 of a STATUS read is BUSY as it stands at the read (R27). -/
theorem perform_read_status_bit0 (s : State) : (s.perform (.read 0x0002)).readData.getLsbD 0 = s.busy := by
  obtain ⟨hbusy, -⟩ := statusWord_fields s
  rw [perform_read_status, State.returns_readData, ← hbusy, BitVec.getLsbD_setWidth]
  rfl

/-- Settles O15: the read sees BUSY before the completion if it overtakes, and after it if it waits. -/
theorem bothOrdersOfReadAndCompletion : Obligations.BothOrdersOfReadAndCompletion := by
  intro s rest hb
  refine ⟨fun hin => ⟨_, step_of_action hin (.inr rfl), ?_⟩, fun hin => ?_⟩
  · rw [perform_read_status_bit0]
    exact hb
  · obtain ⟨t, ht, ⟨-, hinputs, -⟩, hq⟩ := sequencerStep_next s
    have hcompletion : step s = .next t :=
      (step_of_waits (by rw [hin]; rfl) (.inr ((busy_eq_true s).1 hb))).trans ht
    have hread := step_of_action (hinputs.trans hin) (.inl hq)
    refine ⟨_, (run_add 1 (run_one hcompletion)).trans (run_one hread), ?_⟩
    rw [perform_read_status_bit0]
    exact (busy_eq_false _).2 hq

end Sys2Proof.Machine

end

section
/-! PROOF. Reset and hazards (70_reset_and_hazards.md): the first STATUS read after a command, the wipe, and STATUS at the end
of a final run. -/

namespace Sys2Proof.Machine

open Sys2Proof.Safety Sys2Proof.Claims

/-! ### The first STATUS read (R240) -/

/-- A STATUS read returns BUSY, ILL and ECODE as they stand at the read (R27). -/
theorem perform_read_status_fields (s : State) : (s.perform (.read 0x0002)).readData.getLsbD 0 = s.busy ∧
    (s.perform (.read 0x0002)).readData.getLsbD 1 = s.ill ∧
    (s.perform (.read 0x0002)).readData.toNat / 16 % 16 = ecodeNumber s.ecode := by
  obtain ⟨-, hill, -, -, hecode, -⟩ := statusWord_fields s
  have hbits : (s.statusWord.setWidth 64).toNat = s.statusWord.toNat := BitVec.toNat_setWidth_of_le (by decide)
  refine ⟨perform_read_status_bit0 s, ?_, ?_⟩
  · rw [perform_read_status, State.returns_readData, ← hill, BitVec.getLsbD_setWidth]
    rfl
  · rw [perform_read_status, State.returns_readData, hbits, hecode]

/-- A STATUS read that reaches the core right after a step shows what the step has left. -/
theorem run_two_status_read {s t : State} {rest : List Arrival} (h : step s = .next t)
    (hin : t.inputs = ⟨.read 0x0002, true⟩ :: rest) :
    ∃ u, run 2 s = .next u ∧ u.readData.getLsbD 0 = t.busy ∧ u.readData.getLsbD 1 = t.ill ∧
      u.readData.toNat / 16 % 16 = ecodeNumber t.ecode :=
  ⟨_, (run_add 1 (run_one h)).trans (run_one (step_of_action hin (.inr rfl))),
    perform_read_status_fields { t with inputs := rest }⟩

/-- Settles O16: the read finds the core busy if the word is accepted, and idle with the refusal's code if it is not. -/
theorem firstStatusReadAfterACommand : Obligations.FirstStatusReadAfterACommand := by
  intro s v o rest hq hin
  cases hleg : legality s.par.nslot (v.setWidth 32) with
  | ok i =>
    obtain ⟨t, hrun, hbusy, -⟩ := run_two_status_read (step_of_submission hq hin hleg) rfl
    exact ⟨t, hrun, fun _ _ => hbusy, nofun⟩
  | error e =>
    obtain ⟨t, hrun, hbusy, hill, hecode⟩ := run_two_status_read (illegalWordIsRefused s v o _ e hq hin hleg) rfl
    refine ⟨t, hrun, nofun, fun e' he => ?_⟩
    obtain rfl : e = e' := Except.error.inj he
    exact ⟨hbusy.trans ((busy_eq_false _).2 hq), hill, hecode⟩

/-! ### The wipe (R232) -/

/-- A CTRL write with bit 0 = 1 while idle starts a wipe. -/
theorem writeCtrl_idle {s : State} {v : BusWord} (hq : s.seq = .idle) (hv : v.getLsbD 0 = true) :
    s.writeCtrl v = s.wipeStart := by
  rw [State.writeCtrl, if_pos hv, if_neg (by simp [(busy_eq_false s).2 hq])]

theorem slotAt_wipedSlots (slots : List Slot) (k : Nat) :
    slotAt (wipedSlots slots) k = (slotAt slots k).map fun _ => ⟨0, true⟩ :=
  List.getD_map slots [] (List.map fun _ : Digit => Digit.mk 0 true)

/-- Every digit of the slot file is 0 and written after a wipe. -/
theorem digit_wipeComplete {s : State} {k j : Nat} (hs : slotFileWf s.par s.slots = true) (hk : k < s.par.nslot)
    (hj : j < s.par.n) : s.wipeComplete.digit k j = ⟨0, true⟩ := by
  obtain ⟨sl, -, -, hsl, hdigit, -⟩ := digit_of_wf hs hk hj
  rw [State.digit, State.wipeComplete_slots, slotAt_wipedSlots, hsl, List.getD_eq_getElem?_getD, List.getElem?_map, hdigit]
  rfl

theorem slot_wipeComplete {s : State} {k : Nat} (hs : slotFileWf s.par s.slots = true) (hk : k < s.par.nslot) :
    s.wipeComplete.slot k = 0 := by
  rw [slotValueIsTheDigitSum s.wipeComplete k (wipedSlots_wf hs) hk]
  refine Finset.sum_eq_zero fun j hj => ?_
  rw [digit_wipeComplete hs hk (Finset.mem_range.1 hj), Nat.zero_mul]

/-- Settles O33: the two steps are `State.wipeStart` and `State.wipeComplete`. -/
theorem wipeZeroesTheSlotFile : Obligations.WipeZeroesTheSlotFile := by
  intro s v o rest hs hq hv hin hw
  have hstart : step s = .next { s with inputs := rest, seq := .wiping } := by
    rw [step_of_action hin (.inl hq), perform_write_ctrl]
    exact congrArg Host.Outcome.next (writeCtrl_idle (s := { s with inputs := rest }) hq hv)
  have hcomplete : step { s with inputs := rest, seq := .wiping } =
      .next ({ s with inputs := rest, seq := .wiping } : State).wipeComplete :=
    step_of_waits hw (.inr nofun)
  refine ⟨_, _, hstart, rfl, rfl, hcomplete, fun k j hk hj => digit_wipeComplete hs hk hj,
    fun k hk => slot_wipeComplete hs hk, rfl, fun x hx => ?_, rfl⟩
  obtain ⟨-, -, rfl⟩ := List.mem_map.1 hx
  rfl

/-! ### The end of a run (R206, R243) -/

/-- With an empty fault record STATUS has no error to show. -/
theorem noError_of_faults_nil {s : State} (h : statusWf s) (hf : s.faults = []) :
    s.ill = false ∧ s.haz = false ∧ s.ecode = .none := by
  obtain ⟨hnone, hill, hhaz, -⟩ := h
  simp only [hf, List.not_mem_nil, exists_false, imp_false, Bool.not_eq_true] at hill hhaz
  exact ⟨hill, hhaz, hnone.2 ⟨hill, hhaz⟩⟩

/-- In an idle state without an error STATUS is CF in its place (R27). -/
theorem statusWord_of_noError {s : State} (hq : s.seq = .idle) (hi : s.ill = false) (hh : s.haz = false)
    (he : s.ecode = .none) : s.statusWord = if s.cf then 0x100 else 0 := by
  cases hc : s.cf with
  | false => exact statusWord_eq_zero hq hi hh he hc
  | true => simp [State.statusWord, (busy_eq_false s).2 hq, hi, hh, he, hc, ecodeNumber]

/-- Settles O19: the invariant holds STATUS to the fault record, which is empty. -/
theorem finalRunShowsNoError : Obligations.FinalRunShowsNoError := by
  rintro s hinv ⟨⟨-, hq⟩, hf⟩
  obtain ⟨hi, hh, he⟩ := noError_of_faults_nil hinv.status hf
  exact statusWord_of_noError hq hi hh he

end Sys2Proof.Machine

end

section
/-! PROOF. The spec's example words (95_test_vectors.md L2.5 and L3): a legal word is the encoding of its command, and an
illegal one is refused by the check of R88 that its fields fail. -/

/-! ### Words of the spec (R80 to R88) -/

namespace Sys2Proof

/-- The two round trips together: the words that decode to a command are its encoding alone (R87). -/
theorem decode_eq_ok_iff {c : Word} {i : Instr} : decode c = .ok i ↔ encode i = c :=
  ⟨encodeDecodeRoundTrip c i, fun h => h ▸ decode_encode i⟩

/-- MP_SUBC refuses an IMM8 other than 0 and 1 (R82). -/
theorem decodeFields_mpSubc_illImm {imm : Fin 256} (h : 1 < imm.val) (rd rs1 rs2 : SlotIx) :
    decodeFields 0x03 rd rs1 rs2 imm = .error .illImm :=
  if_pos h

/-- FP_SQR refuses a second source (R85). -/
theorem decodeFields_fpSqr_illZero {rs2 : SlotIx} (h : rs2.val ≠ 0) (rd rs1 : SlotIx) (imm : Fin 256) :
    decodeFields 0x06 rd rs1 rs2 imm = .error .illZero :=
  if_pos h

/-- Settles O5: each legal word is its command's encoding; MP_SUBC has IMM8 = 2, FP_SQR has RS2 = 1, and opcode 0 is
reserved. -/
theorem specWordsDecode : Obligations.SpecWordsDecode := by
  unfold Obligations.SpecWordsDecode
  simp only [decode_eq_ok_iff]
  refine ⟨by decide, by decide, by decide, by decide, by decide, by decide, by decide, by decide, ?_, ?_, ?_⟩
  · exact decodeFields_mpSubc_illImm (by decide) ..
  · exact decodeFields_fpSqr_illZero (by decide) ..
  · exact decodeFields_reserved (.inl rfl) ..

end Sys2Proof

end
